-- ==== Sys2Proof/Word.lean ====
section
/-! DEFINITION. The widths of the machine's values (00_scope.md R4, R5; 10_state.md R10, R13, R15, R22).
Every quantity is unsigned; nothing here is signed and nothing is ever sign extended (R5). -/

namespace Sys2Proof

/-- A general register's value, a RAM cell, an immediate `kk`, a timer (R10, R18, R19, R40): 8 bits. -/
abbrev Byte := BitVec 8

/-- A RAM address, and the program counter that holds one (R13, R40): 12 bits, `0x000` to `0xFFF`. -/
abbrev Addr := BitVec 12

/-- One 16-bit instruction word (R60). -/
abbrev Opcode := BitVec 16

/-- The 16-bit index register's value (R15). -/
abbrev Index := BitVec 16

/-- The keypad mask: bit `i` set means key `i` is pressed (R25). -/
abbrev KeyMask := BitVec 16

/-- One row of the display, one bit a pixel, column 0 in bit 63 (R22, R23). -/
abbrev Row := BitVec 64

/-- A 4-bit field of an opcode (R60). -/
abbrev Nibble := BitVec 4

/-- The number of a general register, `V0` to `VF` (R10). -/
abbrev Reg := Fin 16

/-- `VF = V[15]`, the register that doubles as the flag (R10, R12). -/
abbrev VF : Reg := 15

end Sys2Proof
end

