-- ==== Sys2Proof/Syntax.lean ====
section
/-! DEFINITION. The 34 instructions of 30_encoding.md R64, one constructor a row, in the table's order.
Operand fields carry the widths of R62: `x`, `y` register numbers, `n` a row count, `kk` a byte, `nnn` an address. -/

namespace Sys2Proof

/-- One instruction. `shr` and `shl` carry the `y` field of their encoding, which they ignore (R64, R128, R130). -/
inductive Instr where
  | clearScreen
  | ret
  | jump (nnn : Addr)
  | call (nnn : Addr)
  | skipEqImm (x : Reg) (kk : Byte)
  | skipNeqImm (x : Reg) (kk : Byte)
  | skipEqReg (x y : Reg)
  | loadImm (x : Reg) (kk : Byte)
  | addImm (x : Reg) (kk : Byte)
  | loadReg (x y : Reg)
  | orReg (x y : Reg)
  | andReg (x y : Reg)
  | xorReg (x y : Reg)
  | addReg (x y : Reg)
  | sub (x y : Reg)
  | shr (x y : Reg)
  | subn (x y : Reg)
  | shl (x y : Reg)
  | skipNeqReg (x y : Reg)
  | loadI (nnn : Addr)
  | jumpV0 (nnn : Addr)
  | rand (x : Reg) (kk : Byte)
  | draw (x y : Reg) (n : Fin 16)
  | skipKeyPressed (x : Reg)
  | skipKeyNotPressed (x : Reg)
  | readDelay (x : Reg)
  | waitKey (x : Reg)
  | setDelay (x : Reg)
  | setSound (x : Reg)
  | addI (x : Reg)
  | fontAddr (x : Reg)
  | bcd (x : Reg)
  | storeRegs (x : Reg)
  | loadRegs (x : Reg)
  deriving DecidableEq, Repr

end Sys2Proof
end

