-- ==== Sys2Proof/WellFormed.lean ====
section
/-! DEFINITION. Well-formedness: each operand, as a number, fits its field of 30_encoding.md R62. The spec puts no other
restriction on an operand (R10: "the encoding has no restriction"). The types of Instr already hold each operand inside
its field, so every Instr is well formed (Laws/PerInstr.lean proves it); the check is on the numbers. -/

namespace Sys2Proof

/-- The operands of an instruction as plain numbers, in the names of R62; a field the instruction does not use is 0. -/
structure Operands where
  x : Nat := 0
  y : Nat := 0
  n : Nat := 0
  kk : Nat := 0
  nnn : Nat := 0
  deriving DecidableEq, Repr

/-- Each field fits its width (R62): 4 bits for `x`, `y` and `n`, 8 for `kk`, 12 for `nnn`. -/
def Operands.fit (o : Operands) : Bool :=
  decide (o.x < 16) && decide (o.y < 16) && decide (o.n < 16) && decide (o.kk < 256) && decide (o.nnn < 4096)

/-- The operands an instruction carries. -/
def Instr.operands : Instr → Operands
  | .clearScreen | .ret => {}
  | .jump nnn | .call nnn | .loadI nnn | .jumpV0 nnn => { nnn := nnn.toNat }
  | .skipEqImm x kk | .skipNeqImm x kk | .loadImm x kk | .addImm x kk | .rand x kk => { x := x.val, kk := kk.toNat }
  | .skipEqReg x y | .loadReg x y | .orReg x y | .andReg x y | .xorReg x y | .addReg x y | .sub x y | .shr x y
  | .subn x y | .shl x y | .skipNeqReg x y => { x := x.val, y := y.val }
  | .draw x y n => { x := x.val, y := y.val, n := n.val }
  | .skipKeyPressed x | .skipKeyNotPressed x | .readDelay x | .waitKey x | .setDelay x | .setSound x | .addI x
  | .fontAddr x | .bcd x | .storeRegs x | .loadRegs x => { x := x.val }

/-- The instruction's operands fit their fields. -/
def Instr.wellFormed (i : Instr) : Bool := i.operands.fit

end Sys2Proof
end

