-- ==== Sys2Proof/Decode.lean ====
section
/-! DEFINITION. The decoder and the encoder of 30_encoding.md. The bit patterns (R4, R61, R64) and the field positions (R62)
are parameters of the hardware, held here as Config data that the decoder and the encoder both read: the spec's own decisions
D1 and D2, from general knowledge (PRESUMED, log entry 5). They stand in this file and not in Config.lean so that a wrong
pattern can be mended. -/

namespace Sys2Proof

/-! ## The parameters: field positions (R62) and the opcode table (R64) -/

/-- The lowest bit of the field `x` (R62: `x = opcode[11:8]`). -/
abbrev Config.xPos : Nat := 8

/-- The lowest bit of the field `y` (R62: `y = opcode[7:4]`). -/
abbrev Config.yPos : Nat := 4

/-- The lowest bit of the field `n` (R62: `n = opcode[3:0]`). -/
abbrev Config.nPos : Nat := 0

/-- The lowest bit of the field `kk` (R62: `kk = opcode[7:0]`). -/
abbrev Config.kkPos : Nat := 0

/-- The lowest bit of the field `nnn` (R62: `nnn = opcode[11:0]`). -/
abbrev Config.nnnPos : Nat := 0

/-- The operation tags of the decoder's output, one a row of R64 (R70; the tag `unrecognised` is `DecodeError.unrecognised`). -/
inductive Tag where
  | clearScreen | ret | jump | call | skipEqImm | skipNeqImm | skipEqReg | loadImm
  | addImm | loadReg | orReg | andReg | xorReg | addReg | sub | shr
  | subn | shl | skipNeqReg | loadI | jumpV0 | rand | draw | skipKeyPressed
  | skipKeyNotPressed | readDelay | waitKey | setDelay | setSound | addI | fontAddr | bcd
  | storeRegs | loadRegs
  deriving DecidableEq, Repr

/-- Every tag, in the order of R64. -/
def Tag.all : List Tag :=
  [.clearScreen, .ret, .jump, .call, .skipEqImm, .skipNeqImm, .skipEqReg, .loadImm,
   .addImm, .loadReg, .orReg, .andReg, .xorReg, .addReg, .sub, .shr,
   .subn, .shl, .skipNeqReg, .loadI, .jumpV0, .rand, .draw, .skipKeyPressed,
   .skipKeyNotPressed, .readDelay, .waitKey, .setDelay, .setSound, .addI, .fontAddr, .bcd,
   .storeRegs, .loadRegs]

/-- One row of R64: an opcode `w` selects it exactly when `w &&& mask = pattern`. -/
structure OpcodeRow where
  mask : Opcode
  pattern : Opcode
  deriving DecidableEq, Repr

/-- THE OPCODE TABLE, a parameter of R4: the mask and the pattern of each row of R64 (D1). The decoder and the encoder take
every bit pattern from here. -/
def Config.opcodeRow : Tag → OpcodeRow
  | .clearScreen => ⟨0xFFFF, 0x00E0⟩
  | .ret => ⟨0xFFFF, 0x00EE⟩
  | .jump => ⟨0xF000, 0x1000⟩
  | .call => ⟨0xF000, 0x2000⟩
  | .skipEqImm => ⟨0xF000, 0x3000⟩
  | .skipNeqImm => ⟨0xF000, 0x4000⟩
  | .skipEqReg => ⟨0xF00F, 0x5000⟩
  | .loadImm => ⟨0xF000, 0x6000⟩
  | .addImm => ⟨0xF000, 0x7000⟩
  | .loadReg => ⟨0xF00F, 0x8000⟩
  | .orReg => ⟨0xF00F, 0x8001⟩
  | .andReg => ⟨0xF00F, 0x8002⟩
  | .xorReg => ⟨0xF00F, 0x8003⟩
  | .addReg => ⟨0xF00F, 0x8004⟩
  | .sub => ⟨0xF00F, 0x8005⟩
  | .shr => ⟨0xF00F, 0x8006⟩
  | .subn => ⟨0xF00F, 0x8007⟩
  | .shl => ⟨0xF00F, 0x800E⟩
  | .skipNeqReg => ⟨0xF00F, 0x9000⟩
  | .loadI => ⟨0xF000, 0xA000⟩
  | .jumpV0 => ⟨0xF000, 0xB000⟩
  | .rand => ⟨0xF000, 0xC000⟩
  | .draw => ⟨0xF000, 0xD000⟩
  | .skipKeyPressed => ⟨0xF0FF, 0xE09E⟩
  | .skipKeyNotPressed => ⟨0xF0FF, 0xE0A1⟩
  | .readDelay => ⟨0xF0FF, 0xF007⟩
  | .waitKey => ⟨0xF0FF, 0xF00A⟩
  | .setDelay => ⟨0xF0FF, 0xF015⟩
  | .setSound => ⟨0xF0FF, 0xF018⟩
  | .addI => ⟨0xF0FF, 0xF01E⟩
  | .fontAddr => ⟨0xF0FF, 0xF029⟩
  | .bcd => ⟨0xF0FF, 0xF033⟩
  | .storeRegs => ⟨0xF0FF, 0xF055⟩
  | .loadRegs => ⟨0xF0FF, 0xF065⟩

/-- Does an opcode select a row (R64)? -/
def OpcodeRow.selects (r : OpcodeRow) (w : Opcode) : Bool := decide (w &&& r.mask = r.pattern)

/-! ## The nibbles and the fields of an opcode (R60, R62) -/

/-- The four nibbles `N3`, `N2`, `N1`, `N0` of an opcode, the most significant first (R60). The fields of R62 are made of
them (Laws/Encoding.lean); `N3` is the major opcode of every format (R61). -/
def nibbles (w : Opcode) : Nibble × Nibble × Nibble × Nibble :=
  (w.extractLsb' 12 4, w.extractLsb' 8 4, w.extractLsb' 4 4, w.extractLsb' 0 4)

/-- The field `x` (R62). -/
def fieldX (w : Opcode) : Reg := (w.extractLsb' Config.xPos 4).toFin

/-- The field `y` (R62). -/
def fieldY (w : Opcode) : Reg := (w.extractLsb' Config.yPos 4).toFin

/-- The field `n` (R62). -/
def fieldN (w : Opcode) : Fin 16 := (w.extractLsb' Config.nPos 4).toFin

/-- The field `kk` (R62). -/
def fieldKK (w : Opcode) : Byte := w.extractLsb' Config.kkPos 8

/-- The field `nnn` (R62). -/
def fieldNNN (w : Opcode) : Addr := w.extractLsb' Config.nnnPos 12

/-! ## Decoding (R63, R64, R65) -/

/-- Why the decoder gives no instruction. -/
inductive DecodeError where
  /-- The opcode matches no row of R64: the machine runs it as a no-op (R65), it does not stop. -/
  | unrecognised (opcode : Opcode)
  /-- Fewer than two bytes were given, so there is no opcode (R60). -/
  | truncated
  deriving DecidableEq, Repr

/-- The row of R64 that an opcode selects; `none` for an unrecognised opcode (R65). No two rows overlap, so the order of the
search does not matter (Laws/Encoding.lean). -/
def decodeTag (w : Opcode) : Option Tag := Tag.all.find? fun t => (Config.opcodeRow t).selects w

/-- The instruction of a tag, its operands read from the fields of R62 that its format has (R61). -/
def Tag.instr (w : Opcode) : Tag → Instr
  | .clearScreen => .clearScreen
  | .ret => .ret
  | .jump => .jump (fieldNNN w)
  | .call => .call (fieldNNN w)
  | .skipEqImm => .skipEqImm (fieldX w) (fieldKK w)
  | .skipNeqImm => .skipNeqImm (fieldX w) (fieldKK w)
  | .skipEqReg => .skipEqReg (fieldX w) (fieldY w)
  | .loadImm => .loadImm (fieldX w) (fieldKK w)
  | .addImm => .addImm (fieldX w) (fieldKK w)
  | .loadReg => .loadReg (fieldX w) (fieldY w)
  | .orReg => .orReg (fieldX w) (fieldY w)
  | .andReg => .andReg (fieldX w) (fieldY w)
  | .xorReg => .xorReg (fieldX w) (fieldY w)
  | .addReg => .addReg (fieldX w) (fieldY w)
  | .sub => .sub (fieldX w) (fieldY w)
  | .shr => .shr (fieldX w) (fieldY w)
  | .subn => .subn (fieldX w) (fieldY w)
  | .shl => .shl (fieldX w) (fieldY w)
  | .skipNeqReg => .skipNeqReg (fieldX w) (fieldY w)
  | .loadI => .loadI (fieldNNN w)
  | .jumpV0 => .jumpV0 (fieldNNN w)
  | .rand => .rand (fieldX w) (fieldKK w)
  | .draw => .draw (fieldX w) (fieldY w) (fieldN w)
  | .skipKeyPressed => .skipKeyPressed (fieldX w)
  | .skipKeyNotPressed => .skipKeyNotPressed (fieldX w)
  | .readDelay => .readDelay (fieldX w)
  | .waitKey => .waitKey (fieldX w)
  | .setDelay => .setDelay (fieldX w)
  | .setSound => .setSound (fieldX w)
  | .addI => .addI (fieldX w)
  | .fontAddr => .fontAddr (fieldX w)
  | .bcd => .bcd (fieldX w)
  | .storeRegs => .storeRegs (fieldX w)
  | .loadRegs => .loadRegs (fieldX w)

/-- The decoder on one opcode: total, and it reads nothing but the opcode (R63, R70). -/
def decode (w : Opcode) : Except DecodeError Instr :=
  match decodeTag w with
  | some t => .ok (t.instr w)
  | none => .error (.unrecognised w)

/-- An opcode from its two bytes, the one at the lower address in bits `[15:8]` (20_memory.md R47). -/
def opcodeOf (hi lo : Byte) : Opcode := (hi.setWidth 16 <<< 8) ||| lo.setWidth 16

/-- The decoder on bytes in memory order: the instruction and the bytes after it. -/
def decodeBytes : List Byte → Except DecodeError (Instr × List Byte)
  | hi :: lo :: rest =>
    match decode (opcodeOf hi lo) with
    | .ok i => .ok (i, rest)
    | .error e => .error e
  | _ => .error .truncated

/-! ## Encoding (R61, R64) -/

/-- The tag of an instruction (R70). -/
def Instr.tag : Instr → Tag
  | .clearScreen => .clearScreen
  | .ret => .ret
  | .jump _ => .jump
  | .call _ => .call
  | .skipEqImm _ _ => .skipEqImm
  | .skipNeqImm _ _ => .skipNeqImm
  | .skipEqReg _ _ => .skipEqReg
  | .loadImm _ _ => .loadImm
  | .addImm _ _ => .addImm
  | .loadReg _ _ => .loadReg
  | .orReg _ _ => .orReg
  | .andReg _ _ => .andReg
  | .xorReg _ _ => .xorReg
  | .addReg _ _ => .addReg
  | .sub _ _ => .sub
  | .shr _ _ => .shr
  | .subn _ _ => .subn
  | .shl _ _ => .shl
  | .skipNeqReg _ _ => .skipNeqReg
  | .loadI _ => .loadI
  | .jumpV0 _ => .jumpV0
  | .rand _ _ => .rand
  | .draw _ _ _ => .draw
  | .skipKeyPressed _ => .skipKeyPressed
  | .skipKeyNotPressed _ => .skipKeyNotPressed
  | .readDelay _ => .readDelay
  | .waitKey _ => .waitKey
  | .setDelay _ => .setDelay
  | .setSound _ => .setSound
  | .addI _ => .addI
  | .fontAddr _ => .fontAddr
  | .bcd _ => .bcd
  | .storeRegs _ => .storeRegs
  | .loadRegs _ => .loadRegs

/-- The row of R64 that an instruction stands for. -/
def Instr.row (i : Instr) : OpcodeRow := Config.opcodeRow i.tag

/-- A field placed with its lowest bit at bit `k` of the opcode. -/
def place {m : Nat} (b : BitVec m) (k : Nat) : Opcode := b.setWidth 16 <<< k

/-- A register number or a count as the 4-bit field that spells it (R62). -/
def nibble (r : Fin 16) : Nibble := BitVec.ofFin r

/-- The operand bits of format NNN (R61). -/
def bitsNNN (nnn : Addr) : Opcode := place nnn Config.nnnPos

/-- The operand bits of format X (R61). -/
def bitsX (x : Reg) : Opcode := place (nibble x) Config.xPos

/-- The operand bits of format XKK (R61). -/
def bitsXKK (x : Reg) (kk : Byte) : Opcode := bitsX x ||| place kk Config.kkPos

/-- The operand bits of format XY (R61). -/
def bitsXY (x y : Reg) : Opcode := bitsX x ||| place (nibble y) Config.yPos

/-- The operand bits of format XYN (R61). -/
def bitsXYN (x y : Reg) (n : Fin 16) : Opcode := bitsXY x y ||| place (nibble n) Config.nPos

/-- The operand bits of an instruction, by its format (R61). -/
def Instr.operandBits : Instr → Opcode
  | .clearScreen | .ret => 0
  | .jump nnn | .call nnn | .loadI nnn | .jumpV0 nnn => bitsNNN nnn
  | .skipEqImm x kk | .skipNeqImm x kk | .loadImm x kk | .addImm x kk | .rand x kk => bitsXKK x kk
  | .skipEqReg x y | .loadReg x y | .orReg x y | .andReg x y | .xorReg x y | .addReg x y | .sub x y | .shr x y
  | .subn x y | .shl x y | .skipNeqReg x y => bitsXY x y
  | .draw x y n => bitsXYN x y n
  | .skipKeyPressed x | .skipKeyNotPressed x | .readDelay x | .waitKey x | .setDelay x | .setSound x | .addI x
  | .fontAddr x | .bcd x | .storeRegs x | .loadRegs x => bitsX x

/-- The one word of each instruction: the pattern of its row with its operands in their fields (R61, R64). -/
def encode (i : Instr) : Opcode := i.row.pattern ||| i.operandBits

/-- The high byte of an opcode, stored at the lower address (R47). -/
def hiByte (w : Opcode) : Byte := w.extractLsb' 8 8

/-- The low byte of an opcode, stored at the higher address (R47). -/
def loByte (w : Opcode) : Byte := w.extractLsb' 0 8

/-! ## The table's own words, for the host -/

/-- The word that `nbits` and `w` give: the table's bits, zeros above them (R60: an instruction is 16 bits). -/
def tableWord (nbits w : Nat) : Opcode := BitVec.ofNat 16 (w % 2 ^ nbits)

/-- What the decoder reads from an instruction whose bits are `w`, numbered as spec/opcode_table.json numbers them:
the word's two bytes, high byte first, are given to the decoder on bytes. -/
def decodeTableWord (nbits w : Nat) : Option Instr :=
  match decodeBytes [hiByte (tableWord nbits w), loByte (tableWord nbits w)] with
  | .ok (i, _) => some i
  | .error _ => none

end Sys2Proof
end

