-- ==== Sys2Proof/Config.lean ====
section
/-! DEFINITION. The parameters of 00_scope.md R4 with the value this hardware takes, and the values the
spec leaves free. Two more parameters stand elsewhere: the font bytes in Machine/Font.lean, and the opcode table with the
field positions (Config.opcodeRow, Config.xPos, …) in Decode.lean. -/

namespace Sys2Proof.Config

/-- `RAM_SIZE` (R4, R40): 4096 bytes, addresses `0x000` to `0xFFF`. -/
abbrev ramSize : Nat := 0x1000

/-- `PROG_BASE` (R4, R13): where `load` puts the program and where `PC` starts. -/
abbrev progBase : Addr := 0x200#12

/-- `STACK_DEPTH` (R4, R17). -/
abbrev stackDepth : Nat := 16

/-- `WIDTH` of the display (R4, R22). -/
abbrev width : Nat := 64

/-- `HEIGHT` of the display (R4, R22; PRESUMED, the spec's decision D3, log entry 6). -/
abbrev height : Nat := 32

/-- The instruction width in bytes (R4 `ILEN`, R60). -/
abbrev instrWidth : Nat := 2

/-- `TIMERS_RUN_WHILE_WAITING` (R4, R86; DESIGN CHOICE of the spec, its decision D9, log entry 11). -/
def timersRunWhileWaiting : Bool := true

/-- `ADD_I_SETS_VF` (R4, R142; DESIGN CHOICE of the spec, its decision D10, log entry 12). -/
def addISetsVF : Bool := false

/-- FREE VALUE: the keypad mask the host supplies with tick number `k`, where no pending input says
otherwise (10_state.md R25: "supplied fresh each tick by the host"; log entry 1). Nothing can be proved of it. -/
opaque freeKeypad : Nat → KeyMask

/-- FREE VALUE: the byte `random_byte()` gives in tick number `k`, where no pending input says otherwise
(10_state.md R27: "under no law: any byte, every tick"; log entry 1). Nothing can be proved of it. -/
opaque freeRnd : Nat → Byte

end Sys2Proof.Config
end

