-- ==== Sys2Proof/Machine/State.lean ====
section
/-! DEFINITION. The state of 10_state.md as plain data, the stop reasons, and the state after reset (R31, R220).
The last three fields of State (inputs, ticks, out) are the MODEL's own, not the spec's: log entries 1 and 2. -/

namespace Sys2Proof.Machine

/-- The six kinds of fatal fault (60_exceptions.md R190). -/
inductive FaultKind where
  | stackOverflow
  | stackUnderflow
  | memoryOutOfBounds
  | fetchOutOfBounds
  | pcOutOfRange
  | keyIndexOutOfRange
  deriving DecidableEq, Repr

/-- What a fault records (R28, R191): its kind, the opcode (0 for `fetchOutOfBounds`) and the address of that opcode. -/
structure FaultRecord where
  kind : FaultKind
  opcode : Opcode
  pc : Addr
  deriving DecidableEq, Repr

/-- The keypad wait state `WAIT` (R24): `Running`, or `WaitingForKey` with the register that takes the key. -/
inductive Wait where
  | running
  | waitingForKey (r : Reg)
  deriving DecidableEq, Repr

/-- The two inputs the host supplies with one tick (R25, R27, R80). -/
structure TickInput where
  keypad : KeyMask
  rnd : Byte
  deriving DecidableEq, Repr

/-- The OutputState of a tick (R26, R92): the framebuffer view, `changed` and `beep`. -/
structure OutputState where
  fb : Vector Row Config.height
  changed : Bool
  beep : Bool
  deriving DecidableEq, Repr

/-- The result of a tick (R93). -/
inductive TickResult where
  | ok (o : OutputState)
  | fault (r : FaultRecord)
  deriving DecidableEq, Repr

/-- RAM (R40): the cells that differ from their reset content, addresses strictly rising (Machine/Ops.lean `Memory.wf`). -/
abbrev Memory := List Host.Cell

/-- The engine's state (R10 to R28), then three fields of the model's own. -/
structure State where
  /-- `V[0]` to `V[15]`; `V[15]` is `VF`, the flag (R10, R12). -/
  v : Vector Byte 16
  /-- `PC` (R13). -/
  pc : Addr
  /-- `I` (R15). -/
  index : Index
  /-- `SP`, the number of return addresses on the stack, `0` to `16` (R16). -/
  sp : Fin (Config.stackDepth + 1)
  /-- `STACK[0]` to `STACK[15]` (R17). -/
  stack : Vector Addr Config.stackDepth
  /-- `DT` (R18). -/
  dt : Byte
  /-- `ST` (R19). -/
  st : Byte
  /-- `WAIT` (R24). -/
  wait : Wait
  /-- `KEYS` (R25). -/
  keys : KeyMask
  /-- `FAULT` (R28). -/
  fault : Option FaultRecord
  /-- `FB`, row 0 at the top (R22, R23). -/
  fb : Vector Row Config.height
  /-- `RAM` (R40). -/
  ram : Memory
  /-- MODEL'S OWN (log entry 1): the inputs the host has ready for the coming ticks, the next one first. -/
  inputs : List TickInput
  /-- MODEL'S OWN (log entry 1): how many ticks have been taken; picks the free values of a tick with no input ready. -/
  ticks : Nat
  /-- MODEL'S OWN (log entry 2): what the last tick returned. No rule reads it (R26: outputs "are not state"). -/
  out : Option TickResult
  deriving DecidableEq, Repr

/-- The ways a step stops by a fault of its own: none. Every fatal fault of the spec is TAKEN, as a next state with the
latch `FAULT` set (R192), and a tick of the halted engine is a step too (R84): log entry 4. -/
inductive Fault : Type
  deriving DecidableEq, Repr

/-- The ways a step answers no meaning. -/
inductive Refusal where
  /-- Raised by an arm of exec that has no meaning yet; safe. No arm of this model raises it. -/
  | notModelled (mnemonic : String)
  deriving DecidableEq, Repr

/-- The state right after `reset` (R31, R220). RAM lists nothing: an unlisted cell reads as its reset content. -/
def State.reset : State where
  v := Vector.replicate 16 0
  pc := Config.progBase
  index := 0
  sp := 0
  stack := Vector.replicate Config.stackDepth 0
  dt := 0
  st := 0
  wait := .running
  keys := 0
  fault := none
  fb := Vector.replicate Config.height 0
  ram := []
  inputs := []
  ticks := 0
  out := none

end Sys2Proof.Machine
end

