-- ==== Sys2Proof/Machine/Ops.lean ====
section
/-! DEFINITION. The shared operations: RAM, the registers, the call stack, the parts of a tick (40_execution_cycle.md),
taking a fatal fault (60_exceptions.md R192), and the host's `load` and `reset`. -/

namespace Sys2Proof.Machine

/-! ## RAM (20_memory.md R40 to R46) -/

/-- What a cell nothing has written reads as: its reset content, the font then zeros (R31, R41). -/
def Memory.unlisted (a : Nat) : Byte := font.getD a 0

/-- The byte at an address (R44). -/
def Memory.read : Memory → Nat → Byte
  | [], a => Memory.unlisted a
  | c :: m, a => if c.1 = a then c.2 else Memory.read m a

/-- Take a cell off the list, so that it reads as its reset content. -/
def Memory.erase (m : Memory) (a : Nat) : Memory := m.filter fun c => !decide (c.1 = a)

/-- Put a cell in its place by address. -/
def Memory.insert : Memory → Nat → Byte → Memory
  | [], a, b => [(a, b)]
  | c :: m, a, b => if c.1 < a then c :: Memory.insert m a b else (a, b) :: c :: m

/-- Store a byte (R45), keeping the canonical form: a cell that gets its reset content back leaves the list. -/
def Memory.write (m : Memory) (a : Nat) (b : Byte) : Memory :=
  if b = Memory.unlisted a then m.erase a else (m.erase a).insert a b

/-- The canonical form: addresses strictly rising and inside RAM, no cell that holds its reset content. -/
def Memory.wf (m : Memory) : Bool :=
  decide (m.Pairwise fun c d => c.1 < d.1) &&
    m.all fun c => decide (c.1 < Config.ramSize) && decide (c.2 ≠ Memory.unlisted c.1)

/-- `MemRead(addr, 1)` (R44). -/
def State.memRead (s : State) (a : Addr) : Byte := s.ram.read a.toNat

/-- `MemWrite(addr, 1, v)` (R45). -/
def State.memWrite (s : State) (a : Addr) (b : Byte) : State := { s with ram := s.ram.write a.toNat b }

/-! ## The general registers (10_state.md R10) -/

/-- Read `V[r]`. -/
def State.reg (s : State) (r : Reg) : Byte := s.v[r.val]

/-- Write `V[r]`. -/
def State.setReg (s : State) (r : Reg) (b : Byte) : State := { s with v := s.v.set r.val b r.isLt }

/-! ## The call stack (10_state.md R16, R17; 41_control_transfer.md R101, R103) -/

/-- `STACK[SP] <- a`, then `SP <- SP + 1`; `StackOverflow` when `SP = 16` (R103). -/
def State.push (s : State) (a : Addr) : Except FaultKind State :=
  if h : s.sp.val < Config.stackDepth then
    .ok { s with stack := s.stack.set s.sp.val a h, sp := ⟨s.sp.val + 1, Nat.succ_lt_succ h⟩ }
  else .error .stackOverflow

/-- `SP <- SP - 1`, then read `STACK[SP]`, which stays as it is; `StackUnderflow` when `SP = 0` (R101). -/
def State.pop (s : State) : Except FaultKind (Addr × State) :=
  if h : s.sp.val = 0 then .error .stackUnderflow
  else
    .ok (s.stack[s.sp.val - 1]'(by have := s.sp.isLt; omega),
      { s with sp := ⟨s.sp.val - 1, by have := s.sp.isLt; omega⟩ })

/-! ## The inputs of a tick (10_state.md R25, R27; log entry 1) -/

/-- The inputs of the coming tick: the next one the host has ready, else free values. -/
def State.input (s : State) : TickInput :=
  match s.inputs with
  | [] => { keypad := Config.freeKeypad s.ticks, rnd := Config.freeRnd s.ticks }
  | i :: _ => i

/-- The end of a tick, whichever it was: its inputs are used up, and `out` is its result (R93). -/
def State.endTick (s : State) (r : TickResult) : State :=
  { s with inputs := s.inputs.tail, ticks := s.ticks + 1, out := some r }

/-! ## The parts of a tick (40_execution_cycle.md R82) -/

/-- Fetch the opcode at `PC`, high byte first (R47, R87); `none` at `PC = 0xFFF`, whose second byte has no address. -/
def State.fetch (s : State) : Option Opcode :=
  if s.pc = 0xFFF#12 then none else some (opcodeOf (s.memRead s.pc) (s.memRead (s.pc + 1)))

/-- One timer's step: down by 1, floor at 0 (R86). -/
def timerStep (b : Byte) : Byte := if b = 0 then 0 else b - 1

/-- The timer step of a tick (R86). -/
def State.stepTimers (s : State) : State := { s with dt := timerStep s.dt, st := timerStep s.st }

/-- The keypad latch of a tick (R83). -/
def State.latchKeys (s : State) : State := { s with keys := s.input.keypad }

/-- The tentative state a running tick's instruction works on: keypad latched, timers stepped (R82). -/
def State.begin (s : State) : State := s.latchKeys.stepTimers

/-- The PC actions a handler can answer (R88); the target of a jump is a natural number the handler computed. -/
inductive PcAction where
  | advance
  | skip
  | jump (target : Nat)
  deriving DecidableEq, Repr

/-- The new `PC` a PC action asks for, without wrap-around (R89). -/
def pcTarget (pc : Addr) : PcAction → Nat
  | .advance => pc.toNat + Config.instrWidth
  | .skip => pc.toNat + 2 * Config.instrWidth
  | .jump target => target

/-- Apply a PC action: `PcOutOfRange` when the new `PC` is above `0xFFF` (R89). -/
def State.applyPc (s : State) (act : PcAction) : Except FaultKind State :=
  if pcTarget s.pc act < Config.ramSize then .ok { s with pc := BitVec.ofNat 12 (pcTarget s.pc act) }
  else .error .pcOutOfRange

/-- The OutputState of a committed tick (R92). -/
def State.output (s : State) (changed : Bool) : OutputState :=
  { fb := s.fb, changed := changed, beep := decide (0 < s.st.toNat) }

/-- Commit a tick: its result is `Ok` (R90, R92). -/
def State.commit (s : State) (changed : Bool) : State := s.endTick (.ok (s.output changed))

/-! ## Taking a fatal fault (60_exceptions.md R192) -/

/-- The number of a fault kind (R190). -/
def FaultKind.code : FaultKind → Nat
  | .stackOverflow => 1
  | .stackUnderflow => 2
  | .memoryOutOfBounds => 3
  | .fetchOutOfBounds => 4
  | .pcOutOfRange => 5
  | .keyIndexOutOfRange => 6

/-- `raise kind`, from the state `s` AT ENTRY of the tick: nothing the tick did is kept, the latch takes the record, and
the tick returns it (R191, R192). There is no return from a fault but `reset` (R194). -/
def State.takeFault (s : State) (kind : FaultKind) (opcode : Opcode) : State :=
  { s with fault := some ⟨kind, opcode, s.pc⟩ }.endTick (.fault ⟨kind, opcode, s.pc⟩)

/-- A tick of the halted engine: it returns the latched record and changes nothing (R84, R193). -/
def State.haltedTick (s : State) (r : FaultRecord) : State := s.endTick (.fault r)

/-! ## Running one instruction's tick (R82, R88 to R90) -/

/-- What a handler answers when it raises nothing: the tentative state, the PC action, and `changed` (R88). -/
structure Handled where
  state : State
  act : PcAction
  changed : Bool

/-- The tick of one instruction, given its handler: begin, handle, apply the PC action, commit; a fault raised anywhere
is taken from the state at entry (R82, R90). -/
def runHandler (opcode : Opcode) (s : State) (handler : State → Except FaultKind Handled) : State :=
  match handler s.begin with
  | .error k => s.takeFault k opcode
  | .ok h =>
    match h.state.applyPc h.act with
    | .error k => s.takeFault k opcode
    | .ok t => t.commit h.changed

/-- A handler's answer with the PC action advance. -/
def advance (s : State) : Except FaultKind Handled := .ok ⟨s, .advance, false⟩

/-- A handler's answer with the PC action skip where the condition holds, else advance (R14). -/
def skipIf (cond : Bool) (s : State) : Except FaultKind Handled := .ok ⟨s, if cond then .skip else .advance, false⟩

/-- A handler's answer with the PC action jump. -/
def jumpTo (target : Nat) (s : State) : Except FaultKind Handled := .ok ⟨s, .jump target, false⟩

/-- The running tick of an unrecognised opcode: a no-op that advances (30_encoding.md R65, 60_exceptions.md R196). -/
def State.unrecognisedTick (s : State) (opcode : Opcode) : State := runHandler opcode s advance

/-! ## The waiting tick (R85) -/

/-- The least pressed key of a mask, searched from key `k` on through `fuel` keys; 0 where none is pressed. -/
def lowestKeyFrom (mask : KeyMask) (k : Nat) : Nat → Nat
  | 0 => 0
  | fuel + 1 => if mask.getLsbD k then k else lowestKeyFrom mask (k + 1) fuel

/-- The index of the lowest set bit of a nonzero mask (R85: "smallest key index wins"). -/
def lowestKey (mask : KeyMask) : Nat := lowestKeyFrom mask 0 16

/-- The key capture: a nonzero mask writes its lowest key's index to `V[r]` and ends the wait (R85). -/
def State.captureKey (s : State) (r : Reg) (mask : KeyMask) : State :=
  if mask = 0 then s else { s.setReg r (BitVec.ofNat 8 (lowestKey mask)) with wait := .running }

/-- A waiting tick: latch, timer step where the parameter says so, capture; no fetch and no PC action (R82, R85, R86). -/
def State.waitingTick (s : State) (r : Reg) : State :=
  ((if Config.timersRunWhileWaiting then s.begin else s.latchKeys).captureKey r s.input.keypad).commit false

/-! ## The host's operations between ticks (R80, R81; 70_reset_and_hazards.md R220) -/

/-- `load` from offset `j` on: byte `j` goes to `0x200 + j` where that is in RAM, and is dropped where it is not (R81). -/
def State.loadFrom (s : State) (j : Nat) : List Byte → State
  | [] => s
  | b :: bytes =>
    (if Config.progBase.toNat + j < Config.ramSize then s.memWrite (BitVec.ofNat 12 (Config.progBase.toNat + j)) b
      else s).loadFrom (j + 1) bytes

/-- `load(bytes)`: RAM from `0x200` on, and nothing else (R81). -/
def State.load (s : State) (bytes : List Byte) : State := s.loadFrom 0 bytes

/-- `reset` at any time (R220): every piece of the engine's state at its reset value. The inputs the host has ready and
the count of ticks are the host's, not the engine's, and stay (log entry 1). -/
def State.hostReset (s : State) : State := { State.reset with inputs := s.inputs, ticks := s.ticks }

end Sys2Proof.Machine
end

