-- ==== Sys2Proof/Machine/Operands.lean ====
section
/-! DEFINITION. The operand forms: RAM at index plus offset (43_index_and_memory.md R140, 20_memory.md R46), runs of
registers (R145, R146), a key number (R171), the decimal digits of bcd (R144), and a sprite row (44_display.md R162). -/

namespace Sys2Proof.Machine

/-- The bounds check of R46: the last offset `m` from `I`, with no wrap-around, stays in RAM. -/
def inBounds (i : Index) (m : Nat) : Bool := decide (i.toNat + m < Config.ramSize)

/-- The effective address `I + k` of R140, after the bounds check has passed. -/
def effAddr (i : Index) (k : Nat) : Addr := BitVec.ofNat 12 (i.toNat + k)

/-- The `n` bytes at `I`, `I + 1`, … (R140). -/
def State.readBytes (s : State) (n : Nat) : List Byte := (List.range n).map fun k => s.memRead (effAddr s.index k)

/-- Store bytes at `I + k`, `I + k + 1`, …, in ascending order (R51 (c), R140). -/
def State.writeBytesFrom (s : State) (k : Nat) : List Byte → State
  | [] => s
  | b :: bytes => (s.memWrite (effAddr s.index k) b).writeBytesFrom (k + 1) bytes

/-- Store bytes at `I`, `I + 1`, … -/
def State.writeBytes (s : State) (bytes : List Byte) : State := s.writeBytesFrom 0 bytes

/-- The values of `V[0]` to `V[x]` inclusive (R145). -/
def State.regsUpTo (s : State) (x : Reg) : List Byte := s.v.toList.take (x.val + 1)

/-- Write `V[k]`, `V[k + 1]`, … from bytes; bytes past `VF` name no register. -/
def State.setRegsFrom (s : State) (k : Nat) : List Byte → State
  | [] => s
  | b :: bytes => (if h : k < 16 then s.setReg ⟨k, h⟩ b else s).setRegsFrom (k + 1) bytes

/-- The hundreds, tens and ones digit of a byte, one byte each (R144). -/
def bcdDigits (a : Byte) : List Byte :=
  [BitVec.ofNat 8 (a.toNat / 100), BitVec.ofNat 8 (a.toNat / 10 % 10), BitVec.ofNat 8 (a.toNat % 10)]

/-- Is the key that a register names pressed (R171)? `KeyIndexOutOfRange` above 15. -/
def State.keyPressed (s : State) (x : Reg) : Except FaultKind Bool :=
  if (s.reg x).toNat < 16 then .ok (s.keys.getLsbD (s.reg x).toNat) else .error .keyIndexOutOfRange

/-- `rotr64` of 00_scope.md R5. -/
def rotr64 (w : Row) (k : Nat) : Row := if k = 0 then w else (w >>> k) ||| (w <<< (64 - k))

/-- The row mask of a sprite byte at column `cx` (R162). -/
def rowMask (b : Byte) (cx : Nat) : Row := rotr64 (b.setWidth 64 <<< 56) cx

/-- `pixel(r, c)`: column `c` of a row is bit `63 - c` (10_state.md R23). -/
def State.pixel (s : State) (r : Fin Config.height) (c : Fin Config.width) : Bool :=
  s.fb[r.val].getLsbD (63 - c.val)

end Sys2Proof.Machine
end

