-- ==== Sys2Proof/Machine/Flags.lean ====
section
/-! DEFINITION. The one flag, `VF`, always the byte 0 or 1 (10_state.md R12), and its rules (42_alu.md R120, R133). -/

namespace Sys2Proof.Machine

/-- The flag's value as a byte (R12). -/
def flagByte (b : Bool) : Byte := if b then 1 else 0

/-- Carry of `a + b`: the exact sum is above 255 (R127, R133). -/
def carry (a b : Byte) : Bool := decide (255 < a.toNat + b.toNat)

/-- No borrow of `a - b`: `a >= b` (R129, R131, R133). -/
def noBorrow (a b : Byte) : Bool := decide (b.toNat ≤ a.toNat)

/-- The bit a right shift pushes out: bit 0 before the shift (R128). -/
def shrOut (a : Byte) : Bool := a.getLsbD 0

/-- The bit a left shift pushes out: bit 7 before the shift (R130). -/
def shlOut (a : Byte) : Bool := a.getLsbD 7

/-- Write a result to `V[x]` and THEN the flag to `VF`, so that the flag wins where `x = 15` (R120). -/
def State.setWithFlag (s : State) (x : Reg) (result : Byte) (flag : Bool) : State :=
  (s.setReg x result).setReg VF (flagByte flag)

/-- The two words and the collision of one sprite row on one display row (R163): the test comes before the XOR. -/
def collides (row mask : Row) : Bool := decide (row &&& mask ≠ 0)

/-- `VF` after add-I: unchanged, unless the parameter asks for the variant that sets 1 above `0x0F00` (R142, D10). -/
def State.addIFlag (s : State) : State :=
  if Config.addISetsVF && decide (0x0F00 < s.index.toNat) then s.setReg VF 1 else s

end Sys2Proof.Machine
end

