-- ==== Sys2Proof/Machine/Alu.lean ====
section
/-! DEFINITION. The register and ALU instructions (42_alu.md R120 to R133). Each reads its operands first, then writes
`V[x]`, then the flag where it has one (R120); each advances. -/

namespace Sys2Proof.Machine

/-- load-imm (R121). -/
def execLoadImm (x : Reg) (kk : Byte) (s : State) : Host.Outcome State Fault Refusal :=
  .next (runHandler (encode (.loadImm x kk)) s fun t => advance (t.setReg x kk))

/-- add-imm (R122): wraps at 256, no flag. -/
def execAddImm (x : Reg) (kk : Byte) (s : State) : Host.Outcome State Fault Refusal :=
  .next (runHandler (encode (.addImm x kk)) s fun t => advance (t.setReg x (t.reg x + kk)))

/-- load-reg (R123). -/
def execLoadReg (x y : Reg) (s : State) : Host.Outcome State Fault Refusal :=
  .next (runHandler (encode (.loadReg x y)) s fun t => advance (t.setReg x (t.reg y)))

/-- or (R124): no flag. -/
def execOr (x y : Reg) (s : State) : Host.Outcome State Fault Refusal :=
  .next (runHandler (encode (.orReg x y)) s fun t => advance (t.setReg x (t.reg x ||| t.reg y)))

/-- and (R125): no flag. -/
def execAnd (x y : Reg) (s : State) : Host.Outcome State Fault Refusal :=
  .next (runHandler (encode (.andReg x y)) s fun t => advance (t.setReg x (t.reg x &&& t.reg y)))

/-- xor (R126): no flag. -/
def execXor (x y : Reg) (s : State) : Host.Outcome State Fault Refusal :=
  .next (runHandler (encode (.xorReg x y)) s fun t => advance (t.setReg x (t.reg x ^^^ t.reg y)))

/-- add-reg (R127): `VF` is the carry. -/
def execAddReg (x y : Reg) (s : State) : Host.Outcome State Fault Refusal :=
  .next (runHandler (encode (.addReg x y)) s fun t =>
    advance (t.setWithFlag x (t.reg x + t.reg y) (carry (t.reg x) (t.reg y))))

/-- sub (R129): `VF` is 1 when `V[x] >= V[y]`. -/
def execSub (x y : Reg) (s : State) : Host.Outcome State Fault Refusal :=
  .next (runHandler (encode (.sub x y)) s fun t =>
    advance (t.setWithFlag x (t.reg x - t.reg y) (noBorrow (t.reg x) (t.reg y))))

/-- shr (R128): `V[x]` in place, `y` ignored; `VF` is the old bit 0. -/
def execShr (x y : Reg) (s : State) : Host.Outcome State Fault Refusal :=
  .next (runHandler (encode (.shr x y)) s fun t => advance (t.setWithFlag x (t.reg x >>> 1) (shrOut (t.reg x))))

/-- subn (R131): `V[y] - V[x]`; `VF` is 1 when `V[y] >= V[x]`. -/
def execSubn (x y : Reg) (s : State) : Host.Outcome State Fault Refusal :=
  .next (runHandler (encode (.subn x y)) s fun t =>
    advance (t.setWithFlag x (t.reg y - t.reg x) (noBorrow (t.reg y) (t.reg x))))

/-- shl (R130): `V[x]` in place, `y` ignored; `VF` is the old bit 7. -/
def execShl (x y : Reg) (s : State) : Host.Outcome State Fault Refusal :=
  .next (runHandler (encode (.shl x y)) s fun t => advance (t.setWithFlag x (t.reg x <<< 1) (shlOut (t.reg x))))

/-- rand (R132): this tick's free input `rnd`, masked by `kk`. -/
def execRand (x : Reg) (kk : Byte) (s : State) : Host.Outcome State Fault Refusal :=
  .next (runHandler (encode (.rand x kk)) s fun t => advance (t.setReg x (t.input.rnd &&& kk)))

end Sys2Proof.Machine
end

