-- ==== Sys2Proof/Machine/Control.lean ====
section
/-! DEFINITION. The control transfer instructions (41_control_transfer.md R100 to R108). -/

namespace Sys2Proof.Machine

/-- return (R101). -/
def execReturn (s : State) : Host.Outcome State Fault Refusal :=
  .next (runHandler (encode .ret) s fun t =>
    match t.pop with
    | .error k => .error k
    | .ok (a, u) => jumpTo a.toNat u)

/-- jump (R102). -/
def execJump (nnn : Addr) (s : State) : Host.Outcome State Fault Refusal :=
  .next (runHandler (encode (.jump nnn)) s fun t => jumpTo nnn.toNat t)

/-- call (R103): `StackOverflow` is tested before the return address's `PcOutOfRange`. -/
def execCall (nnn : Addr) (s : State) : Host.Outcome State Fault Refusal :=
  .next (runHandler (encode (.call nnn)) s fun t =>
    match t.push (BitVec.ofNat 12 (t.pc.toNat + Config.instrWidth)) with
    | .error k => .error k
    | .ok u =>
      if t.pc.toNat + Config.instrWidth < Config.ramSize then jumpTo nnn.toNat u else .error .pcOutOfRange)

/-- jump-v0 (R104): the register is always `V[0]`, and the sum does not wrap. -/
def execJumpV0 (nnn : Addr) (s : State) : Host.Outcome State Fault Refusal :=
  .next (runHandler (encode (.jumpV0 nnn)) s fun t => jumpTo ((t.reg 0).toNat + nnn.toNat) t)

/-- skip-eq-imm (R105). -/
def execSkipEqImm (x : Reg) (kk : Byte) (s : State) : Host.Outcome State Fault Refusal :=
  .next (runHandler (encode (.skipEqImm x kk)) s fun t => skipIf (decide (t.reg x = kk)) t)

/-- skip-neq-imm (R106). -/
def execSkipNeqImm (x : Reg) (kk : Byte) (s : State) : Host.Outcome State Fault Refusal :=
  .next (runHandler (encode (.skipNeqImm x kk)) s fun t => skipIf (decide (t.reg x ≠ kk)) t)

/-- skip-eq-reg (R107). -/
def execSkipEqReg (x y : Reg) (s : State) : Host.Outcome State Fault Refusal :=
  .next (runHandler (encode (.skipEqReg x y)) s fun t => skipIf (decide (t.reg x = t.reg y)) t)

/-- skip-neq-reg (R108). -/
def execSkipNeqReg (x y : Reg) (s : State) : Host.Outcome State Fault Refusal :=
  .next (runHandler (encode (.skipNeqReg x y)) s fun t => skipIf (decide (t.reg x ≠ t.reg y)) t)

end Sys2Proof.Machine
end

