-- ==== Sys2Proof/Machine/Display.lean ====
section
/-! DEFINITION. The display instructions (44_display.md R160 to R165). Both advance and set `changed`. -/

namespace Sys2Proof.Machine

/-- clear-screen (R160). -/
def execClearScreen (s : State) : Host.Outcome State Fault Refusal :=
  .next (runHandler (encode .clearScreen) s fun t =>
    .ok ⟨{ t with fb := Vector.replicate Config.height 0 }, .advance, true⟩)

/-- The display row that sprite row `b` lands on: each row wraps on its own (R161, R165 (a)). -/
def spriteRow (cy b : Nat) : Fin Config.height := ⟨(cy + b) % Config.height, Nat.mod_lt _ (by decide)⟩

/-- One sprite row: test for a collision, then XOR (R163). The pair is the framebuffer and the flag so far. -/
def blitRow (p : Vector Row Config.height × Bool) (r : Fin Config.height) (mask : Row) :
    Vector Row Config.height × Bool :=
  (p.1.set r.val (p.1[r.val] ^^^ mask), p.2 || collides p.1[r.val] mask)

/-- The first `n` sprite rows, top row first, on the framebuffer of `t`; the flag starts at 0 (R161). -/
def blit (t : State) (cx cy : Nat) : Nat → Vector Row Config.height × Bool
  | 0 => (t.fb, false)
  | b + 1 => blitRow (blit t cx cy b) (spriteRow cy b) (rowMask (t.memRead (effAddr t.index b)) cx)

/-- draw (R161): the coordinates are read before `VF` is written (R164); with `n = 0` no bound is checked (R165 (b)). -/
def execDraw (x y : Reg) (n : Fin 16) (s : State) : Host.Outcome State Fault Refusal :=
  .next (runHandler (encode (.draw x y n)) s fun t =>
    if n.val = 0 || inBounds t.index (n.val - 1) then
      let p := blit t ((t.reg x).toNat % Config.width) (t.reg y).toNat n.val
      .ok ⟨{ t with fb := p.1 }.setReg VF (flagByte p.2), .advance, true⟩
    else .error .memoryOutOfBounds)

end Sys2Proof.Machine
end

