-- ==== Sys2Proof/Machine/IndexMem.lean ====
section
/-! DEFINITION. The index register and memory instructions (43_index_and_memory.md R140 to R146). Each advances; bcd,
store-regs and load-regs check their bounds before any byte moves and leave `I` as it is (R140). -/

namespace Sys2Proof.Machine

/-- load-I (R141). -/
def execLoadI (nnn : Addr) (s : State) : Host.Outcome State Fault Refusal :=
  .next (runHandler (encode (.loadI nnn)) s fun t => advance { t with index := nnn.setWidth 16 })

/-- add-I (R142): the sum wraps at `2^16`. -/
def execAddI (x : Reg) (s : State) : Host.Outcome State Fault Refusal :=
  .next (runHandler (encode (.addI x)) s fun t =>
    advance { t with index := t.index + (t.reg x).setWidth 16 }.addIFlag)

/-- font-addr (R143): the whole byte times 5, not masked. -/
def execFontAddr (x : Reg) (s : State) : Host.Outcome State Fault Refusal :=
  .next (runHandler (encode (.fontAddr x)) s fun t => advance { t with index := (t.reg x).setWidth 16 * 5 })

/-- bcd (R144). -/
def execBcd (x : Reg) (s : State) : Host.Outcome State Fault Refusal :=
  .next (runHandler (encode (.bcd x)) s fun t =>
    if inBounds t.index 2 then advance (t.writeBytes (bcdDigits (t.reg x))) else .error .memoryOutOfBounds)

/-- store-regs (R145). -/
def execStoreRegs (x : Reg) (s : State) : Host.Outcome State Fault Refusal :=
  .next (runHandler (encode (.storeRegs x)) s fun t =>
    if inBounds t.index x.val then advance (t.writeBytes (t.regsUpTo x)) else .error .memoryOutOfBounds)

/-- load-regs (R146). -/
def execLoadRegs (x : Reg) (s : State) : Host.Outcome State Fault Refusal :=
  .next (runHandler (encode (.loadRegs x)) s fun t =>
    if inBounds t.index x.val then advance (t.setRegsFrom 0 (t.readBytes (x.val + 1))) else .error .memoryOutOfBounds)

end Sys2Proof.Machine
end

