-- ==== Sys2Proof/Machine/KeyTimer.lean ====
section
/-! DEFINITION. The keypad and timer instructions (45_keypad_and_timers.md R170 to R177). The keypad they see is this
tick's, and the timers are those after this tick's timer step (R170). -/

namespace Sys2Proof.Machine

/-- skip-key-pressed (R171). -/
def execSkipKeyPressed (x : Reg) (s : State) : Host.Outcome State Fault Refusal :=
  .next (runHandler (encode (.skipKeyPressed x)) s fun t =>
    match t.keyPressed x with
    | .error k => .error k
    | .ok pressed => skipIf pressed t)

/-- skip-key-not-pressed (R172). -/
def execSkipKeyNotPressed (x : Reg) (s : State) : Host.Outcome State Fault Refusal :=
  .next (runHandler (encode (.skipKeyNotPressed x)) s fun t =>
    match t.keyPressed x with
    | .error k => .error k
    | .ok pressed => skipIf (!pressed) t)

/-- read-delay (R173). -/
def execReadDelay (x : Reg) (s : State) : Host.Outcome State Fault Refusal :=
  .next (runHandler (encode (.readDelay x)) s fun t => advance (t.setReg x t.dt))

/-- wait-key (R174): the following ticks are waiting ticks; this tick's keypad is not looked at. -/
def execWaitKey (x : Reg) (s : State) : Host.Outcome State Fault Refusal :=
  .next (runHandler (encode (.waitKey x)) s fun t => advance { t with wait := .waitingForKey x })

/-- set-delay (R175): the write comes after this tick's timer step. -/
def execSetDelay (x : Reg) (s : State) : Host.Outcome State Fault Refusal :=
  .next (runHandler (encode (.setDelay x)) s fun t => advance { t with dt := t.reg x })

/-- set-sound (R176): the write comes after this tick's timer step. -/
def execSetSound (x : Reg) (s : State) : Host.Outcome State Fault Refusal :=
  .next (runHandler (encode (.setSound x)) s fun t => advance { t with st := t.reg x })

end Sys2Proof.Machine
end

