-- ==== Sys2Proof/Machine/Step.lean ====
section
/-! DEFINITION. One step is one tick of the engine (00_scope.md R9; 40_execution_cycle.md R82). It calls the operations
of Machine/Ops.lean and exec, and does nothing else. -/

namespace Sys2Proof.Machine

/-- `tick`: halted, waiting or running, in that order (R82, 60_exceptions.md R195). A running tick fetches, decodes and
runs one opcode; an unrecognised one is a no-op (R65). -/
def step (s : State) : Host.Outcome State Fault Refusal :=
  match s.fault with
  | some r => .next (s.haltedTick r)
  | none =>
    match s.wait with
    | .waitingForKey r => .next (s.waitingTick r)
    | .running =>
      match s.fetch with
      | none => .next (s.takeFault .fetchOutOfBounds 0)
      | some w =>
        match decode w with
        | .ok i => exec i s
        | .error _ => .next (s.unrecognisedTick w)

/-- Where the next instruction is fetched from: `PC`, or `0x200` where `PC = 0xFFF`, from which nothing can be fetched. -/
def State.fetchAddr (s : State) : Addr := if s.pc = 0xFFF#12 then Config.progBase else s.pc

/-- The state `s` with an instruction of spec/opcode_table.json placed where step fetches its next one, high byte first
(R47), and made ready to fetch it: the wait ended and the latch empty (a waiting or halted engine fetches nothing). -/
def State.withFetchWord (s : State) (nbits w : Nat) : State :=
  ({ s with pc := s.fetchAddr, wait := .running, fault := none }.memWrite s.fetchAddr (hiByte (tableWord nbits w))).memWrite
    (s.fetchAddr + 1) (loByte (tableWord nbits w))

end Sys2Proof.Machine
end

