-- ==== Sys2Proof/Safety.lean ====
section
/-! DEFINITION. What a safe run is, the invariant of the machine, and the words the statements use for what a tick does
and what it leaves alone. -/

namespace Sys2Proof.Machine

/-! ## Safe runs (60_exceptions.md R193: a halted engine must be treated as gone wrong) -/

/-- The engine has not gone wrong: the latch is empty. -/
def State.safe (s : State) : Prop := s.fault = none

/-- The first `k` ticks from `s` all answer a next state, and the engine is not halted after any of them. -/
def RunsSafely (k : Nat) (s : State) : Prop :=
  ∀ j, j ≤ k → ∃ t, Host.Core.run core j s = .next t ∧ State.safe t

/-! ## The invariant -/

/-- What every tick keeps. RAM is in its canonical form. A latched fault names the address `PC` still has and the opcode
standing there (0 exactly where nothing could be fetched), and only a running tick can have raised it (R28, R191, R192).
The last result shows the state as it is (R92, R93). -/
structure State.Inv (s : State) : Prop where
  ram : s.ram.wf = true
  latch : ∀ r, s.fault = some r →
    r.pc = s.pc ∧ s.wait = .running ∧ r.opcode = s.fetch.getD 0 ∧ (r.kind = .fetchOutOfBounds ↔ s.fetch = none)
  outOk : ∀ o, s.out = some (.ok o) → s.fault = none ∧ o.fb = s.fb ∧ o.beep = decide (0 < s.st.toNat)
  outFault : ∀ r, s.out = some (.fault r) → s.fault = some r

/-! ## What is about to happen -/

/-- The instruction the next tick runs: none in a halted or waiting engine, at `PC = 0xFFF`, and for an unrecognised
opcode (R82, R88). -/
def State.nextInstr (s : State) : Option Instr :=
  if s.fault = none ∧ s.wait = .running then
    s.fetch.bind fun w =>
      match decode w with
      | .ok i => some i
      | .error _ => none
  else none

end Sys2Proof.Machine

namespace Sys2Proof

/-- The instructions that set `changed` (R91). -/
def Instr.draws : Instr → Bool
  | .clearScreen | .draw _ _ _ => true
  | _ => false

/-- The general registers an instruction may write, by the table of 10_state.md R11. -/
def Instr.mayWriteReg (r : Reg) : Instr → Bool
  | .loadImm x _ | .addImm x _ | .loadReg x _ | .orReg x _ | .andReg x _ | .xorReg x _ | .rand x _ | .readDelay x => r == x
  | .addReg x _ | .sub x _ | .shr x _ | .subn x _ | .shl x _ => r == x || r == VF
  | .draw _ _ _ => r == VF
  | .loadRegs x => decide (r ≤ x)
  | _ => false

end Sys2Proof

namespace Sys2Proof.Machine

/-- The fault an instruction raises in a state, the first in the order of 60_exceptions.md R195: the handler's own by the
table of R190 and R198, then that of the PC action (R89). -/
def faultOf (i : Instr) (s : State) : Option FaultKind :=
  let past (k : Nat) : Option FaultKind := if 0xFFF < s.pc.toNat + k then some .pcOutOfRange else none
  let offset (m : Nat) : Option FaultKind := if 0xFFF < s.index.toNat + m then some .memoryOutOfBounds else past 2
  let skips (cond : Bool) : Option FaultKind := past (if cond then 4 else 2)
  match i with
  | .ret => if s.sp.val = 0 then some .stackUnderflow else none
  | .jump _ => none
  | .call _ => if s.sp.val = 16 then some .stackOverflow else past 2
  | .jumpV0 nnn => if 0xFFF < (s.reg 0).toNat + nnn.toNat then some .pcOutOfRange else none
  | .skipEqImm x kk => skips (s.reg x == kk)
  | .skipNeqImm x kk => skips (s.reg x != kk)
  | .skipEqReg x y => skips (s.reg x == s.reg y)
  | .skipNeqReg x y => skips (s.reg x != s.reg y)
  | .skipKeyPressed x =>
    if 15 < (s.reg x).toNat then some .keyIndexOutOfRange else skips (s.input.keypad.getLsbD (s.reg x).toNat)
  | .skipKeyNotPressed x =>
    if 15 < (s.reg x).toNat then some .keyIndexOutOfRange else skips (!s.input.keypad.getLsbD (s.reg x).toNat)
  | .draw _ _ n => if n.val = 0 then past 2 else offset (n.val - 1)
  | .bcd _ => offset 2
  | .storeRegs x | .loadRegs x => offset x.val
  | _ => past 2

/-! ## What a tick did -/

/-- The pieces of state an instruction may leave alone. -/
inductive Part where
  | regs | index | stack | delay | sound | wait | display | ram
  deriving DecidableEq, Repr

/-- A tick from `s` to `t` left a piece alone; the timers then took this tick's step and nothing else (R86). -/
def Part.kept (s t : State) : Part → Prop
  | .regs => ∀ r, t.reg r = s.reg r
  | .index => t.index = s.index
  | .stack => t.sp = s.sp ∧ t.stack = s.stack
  | .delay => t.dt.toNat = s.dt.toNat - 1
  | .sound => t.st.toNat = s.st.toNat - 1
  | .wait => t.wait = s.wait
  | .display => ∀ r c, t.pixel r c = s.pixel r c
  | .ram => ∀ a, t.memRead a = s.memRead a

/-- The frame: every piece but those named was left alone. -/
def KeptBut (parts : List Part) (s t : State) : Prop := ∀ p, p ∉ parts → p.kept s t

/-- A tick from `s` to `t` committed (R82, R90 to R93): this tick's keypad is latched, no fault was raised, the result is
`Ok` with the state after the tick, and the tick's inputs are used up. -/
structure Committed (s t : State) (changed : Bool) : Prop where
  keys : t.keys = s.input.keypad
  fault : t.fault = s.fault
  out : t.out = some (.ok { fb := t.fb, changed := changed, beep := decide (0 < t.st.toNat) })
  inputs : t.inputs = s.inputs.tail
  ticks : t.ticks = s.ticks + 1

/-- A tick from `s` to `t` raised a fault (R192): `t` is `s` with the latch set, and the tick's result is the record. -/
def FaultTaken (s t : State) (kind : FaultKind) (opcode : Opcode) : Prop :=
  t = { s with fault := some ⟨kind, opcode, s.pc⟩, out := some (.fault ⟨kind, opcode, s.pc⟩),
               inputs := s.inputs.tail, ticks := s.ticks + 1 }

/-- There is room for the PC action advance (R89). -/
abbrev CanAdvance (s : State) : Prop := s.pc.toNat + 2 ≤ 0xFFF

/-- There is room for the PC action skip (R89). -/
abbrev CanSkip (s : State) : Prop := s.pc.toNat + 4 ≤ 0xFFF

/-- The PC action advance was applied (R89). -/
def Advanced (s t : State) : Prop := t.pc.toNat = s.pc.toNat + 2

/-- An instruction that writes `V[x]` and no other piece of state, then advances. -/
def OnlyReg (x : Reg) (s t : State) : Prop :=
  (∀ r, r ≠ x → t.reg r = s.reg r) ∧ Advanced s t ∧ KeptBut [.regs] s t ∧ Committed s t false

/-- An instruction that writes `V[x]` and then the flag `VF`, and no other piece of state, then advances (R120). -/
def RegAndFlag (x : Reg) (flag : Bool) (s t : State) : Prop :=
  t.reg VF = (if flag then 1 else 0) ∧ (∀ r, r ≠ x → r ≠ VF → t.reg r = s.reg r) ∧ Advanced s t ∧
    KeptBut [.regs] s t ∧ Committed s t false

/-- A skip instruction: `PC + 4` where the condition holds, else `PC + 2`, and nothing else (R14). -/
def SkipsIf (cond : Prop) (s t : State) : Prop :=
  (cond → t.pc.toNat = s.pc.toNat + 4) ∧ (¬ cond → t.pc.toNat = s.pc.toNat + 2) ∧ KeptBut [] s t ∧ Committed s t false

/-- The sprite that draw lays over the display, pixel by pixel (44_display.md R162, R165 (a)): sprite row `b` goes to
row `(V[y] + b) mod HEIGHT`, and its bit `7 - j` to column `(V[x] + j) mod 64`. -/
def spritePixel (s : State) (x y : Reg) (n : Fin 16) (r : Fin Config.height) (c : Fin Config.width) : Bool :=
  decide (∃ b : Fin n.val, ∃ j : Fin 8, r.val = ((s.reg y).toNat + b.val) % Config.height ∧
    c.val = ((s.reg x).toNat + j.val) % Config.width ∧ (s.memRead (effAddr s.index b.val)).getLsbD (7 - j.val) = true)

/-- Two states that differ at most in stack entries at or above `SP` (10_state.md R17: stale entries). -/
def SameLive (s t : State) : Prop :=
  t = { s with stack := t.stack } ∧ ∀ k : Fin Config.stackDepth, k.val < s.sp.val → t.stack[k.val] = s.stack[k.val]

end Sys2Proof.Machine
end

