-- ==== Sys2Proof/Certificates/Slice0/Obligations.lean ====
section
/-! DEFINITION. The statements for the provers. A statement whose docstring names a decision D<n> rests on the spec's own
choice of 92_eei_decisions.md, not on its source; OBLIGATIONS.json lists it as derived. -/

open Sys2Proof Sys2Proof.Machine

/-! ## Encoding (30_encoding.md; the bit patterns are the spec's decisions D1 and D2, log entry 5) -/

/-- Decoding an encoded instruction gives it back, every operand at every value (R61, R62, R64). -/
def Obligations.DecodeOfEncode : Prop :=
  ∀ i : Instr, i.wellFormed = true → decode (encode i) = .ok i

/-- An opcode that decodes is the encoding of what it decodes to: no bit of it is dropped, the ignored `y` of shr and shl
included (R63, R64). -/
def Obligations.EncodeOfDecode : Prop :=
  ∀ (w : Opcode) (i : Instr), decode w = .ok i → i.wellFormed = true ∧ encode i = w

/-- The decoder follows the table of R64: an opcode that decodes selects its instruction's row by mask and match and no
instruction of another row decodes from it; an opcode is unrecognised exactly when it selects no row. -/
def Obligations.DecodeFollowsTable : Prop :=
  (∀ (w : Opcode) (i : Instr), decode w = .ok i → i.row.selects w = true ∧ ∀ j : Instr, j.row.selects w = true → j.row = i.row) ∧
  (∀ w : Opcode, decode w = .error (.unrecognised w) ↔ ∀ j : Instr, j.row.selects w = false)

/-- The six groups of unrecognised opcodes of R65, by the opcode's number. -/
def Obligations.UnrecognisedGroups : Prop :=
  ∀ w : Opcode, decode w = .error (.unrecognised w) ↔
    (w.toNat / 0x1000 = 0 ∧ w.toNat ≠ 0x00E0 ∧ w.toNat ≠ 0x00EE) ∨
    (w.toNat / 0x1000 = 5 ∧ w.toNat % 16 ≠ 0) ∨
    (w.toNat / 0x1000 = 8 ∧ 8 ≤ w.toNat % 16 ∧ w.toNat % 16 ≠ 0xE) ∨
    (w.toNat / 0x1000 = 9 ∧ w.toNat % 16 ≠ 0) ∨
    (w.toNat / 0x1000 = 0xE ∧ w.toNat % 256 ∉ [0x9E, 0xA1]) ∨
    (w.toNat / 0x1000 = 0xF ∧ w.toNat % 256 ∉ [0x07, 0x0A, 0x15, 0x18, 0x1E, 0x29, 0x33, 0x55, 0x65])

/-- The patterns of R64 as numbers, one equation a row of the table. -/
def Obligations.EncodingPatterns : Prop :=
  ∀ (x y n : Fin 16) (kk : Byte) (nnn : Addr),
    (encode .clearScreen).toNat = 0x00E0 ∧ (encode .ret).toNat = 0x00EE ∧
    (encode (.jump nnn)).toNat = 0x1000 + nnn.toNat ∧ (encode (.call nnn)).toNat = 0x2000 + nnn.toNat ∧
    (encode (.skipEqImm x kk)).toNat = 0x3000 + x.val * 0x100 + kk.toNat ∧
    (encode (.skipNeqImm x kk)).toNat = 0x4000 + x.val * 0x100 + kk.toNat ∧
    (encode (.skipEqReg x y)).toNat = 0x5000 + x.val * 0x100 + y.val * 0x10 ∧
    (encode (.loadImm x kk)).toNat = 0x6000 + x.val * 0x100 + kk.toNat ∧
    (encode (.addImm x kk)).toNat = 0x7000 + x.val * 0x100 + kk.toNat ∧
    (encode (.loadReg x y)).toNat = 0x8000 + x.val * 0x100 + y.val * 0x10 ∧
    (encode (.orReg x y)).toNat = 0x8001 + x.val * 0x100 + y.val * 0x10 ∧
    (encode (.andReg x y)).toNat = 0x8002 + x.val * 0x100 + y.val * 0x10 ∧
    (encode (.xorReg x y)).toNat = 0x8003 + x.val * 0x100 + y.val * 0x10 ∧
    (encode (.addReg x y)).toNat = 0x8004 + x.val * 0x100 + y.val * 0x10 ∧
    (encode (.sub x y)).toNat = 0x8005 + x.val * 0x100 + y.val * 0x10 ∧
    (encode (.shr x y)).toNat = 0x8006 + x.val * 0x100 + y.val * 0x10 ∧
    (encode (.subn x y)).toNat = 0x8007 + x.val * 0x100 + y.val * 0x10 ∧
    (encode (.shl x y)).toNat = 0x800E + x.val * 0x100 + y.val * 0x10 ∧
    (encode (.skipNeqReg x y)).toNat = 0x9000 + x.val * 0x100 + y.val * 0x10 ∧
    (encode (.loadI nnn)).toNat = 0xA000 + nnn.toNat ∧ (encode (.jumpV0 nnn)).toNat = 0xB000 + nnn.toNat ∧
    (encode (.rand x kk)).toNat = 0xC000 + x.val * 0x100 + kk.toNat ∧
    (encode (.draw x y n)).toNat = 0xD000 + x.val * 0x100 + y.val * 0x10 + n.val ∧
    (encode (.skipKeyPressed x)).toNat = 0xE09E + x.val * 0x100 ∧
    (encode (.skipKeyNotPressed x)).toNat = 0xE0A1 + x.val * 0x100 ∧
    (encode (.readDelay x)).toNat = 0xF007 + x.val * 0x100 ∧ (encode (.waitKey x)).toNat = 0xF00A + x.val * 0x100 ∧
    (encode (.setDelay x)).toNat = 0xF015 + x.val * 0x100 ∧ (encode (.setSound x)).toNat = 0xF018 + x.val * 0x100 ∧
    (encode (.addI x)).toNat = 0xF01E + x.val * 0x100 ∧ (encode (.fontAddr x)).toNat = 0xF029 + x.val * 0x100 ∧
    (encode (.bcd x)).toNat = 0xF033 + x.val * 0x100 ∧ (encode (.storeRegs x)).toNat = 0xF055 + x.val * 0x100 ∧
    (encode (.loadRegs x)).toNat = 0xF065 + x.val * 0x100

/-- A few words written out from R64 decode to what they stand for (95_test_vectors.md E1 to E8). -/
def Obligations.SampleWordsDecode : Prop :=
  decode 0x1234 = .ok (.jump 0x234) ∧ decode 0xD12F = .ok (.draw 1 2 15) ∧ decode 0x8AB7 = .ok (.subn 10 11) ∧
  decode 0x812E = .ok (.shl 1 2) ∧ decode 0xFF0A = .ok (.waitKey 15) ∧ decode 0xF165 = .ok (.loadRegs 1) ∧
  decode 0x00EE = .ok .ret ∧ decode 0x0000 = .error (.unrecognised 0x0000)

/-! ## RAM (20_memory.md) -/

/-- R44 and R45: a write stores its byte, leaves every other byte and every other piece of state alone, and a read
answers the byte (and, being a function of the state, changes nothing). Every address is one of `0x000` to `0xFFF`. -/
def Obligations.RamReadWrite : Prop :=
  ∀ (s : State) (a : Addr) (b : Byte),
    (s.memWrite a b).memRead a = b ∧ (∀ a', a' ≠ a → (s.memWrite a b).memRead a' = s.memRead a') ∧
    { s.memWrite a b with ram := s.ram } = s

/-- A running tick with `PC` below `0xFFF` fetches `{RAM[PC], RAM[PC + 1]}`, the byte at the lower address in bits
`[15:8]`, at any `PC`, even or odd (R47, R48, R87; that no alignment is asked for is decision D24, the bound is D8). -/
def Obligations.FetchBigEndian : Prop :=
  ∀ s : State, s.pc.toNat < 0xFFF →
    ∃ w : Opcode, s.fetch = some w ∧ w.toNat = (s.memRead s.pc).toNat * 256 + (s.memRead (s.pc + 1)).toNat

/-! ## The tick (40_execution_cycle.md) -/

/-- A running tick whose two bytes at `PC` decode to a well-formed instruction IS exec of that instruction at that state:
exec is the whole tick, the keypad latch, the timer step and the commit included (R82, R88). -/
def Obligations.StepRunsDecodedInstruction : Prop :=
  ∀ (s : State) (i : Instr) (rest : List Byte), s.fault = none → s.wait = .running → s.pc.toNat < 0xFFF →
    i.wellFormed = true → decodeBytes [s.memRead s.pc, s.memRead (s.pc + 1)] = .ok (i, rest) → step s = exec i s

/-- A tick of an unrecognised opcode advances and does nothing else; past the end of RAM the advance is the fault
`PcOutOfRange` (R65, R196, R89; that a new `PC` above `0xFFF` faults is decision D7). -/
def Obligations.UnrecognisedIsNoOp : Prop :=
  ∀ (s : State) (w : Opcode), s.fault = none → s.wait = .running → s.fetch = some w →
    decode w = .error (.unrecognised w) →
    (CanAdvance s → ∃ t, step s = .next t ∧ Advanced s t ∧ KeptBut [] s t ∧ Committed s t false) ∧
    (¬ CanAdvance s → ∃ t, step s = .next t ∧ FaultTaken s t .pcOutOfRange w)

/-- A running tick at `PC = 0xFFF` raises `FetchOutOfBounds` with opcode 0 (R87; decision D8). -/
def Obligations.FetchAtLastByteFaults : Prop :=
  ∀ s : State, s.fault = none → s.wait = .running → s.pc = 0xFFF →
    ∃ t, step s = .next t ∧ FaultTaken s t .fetchOutOfBounds 0

/-- Every tick of every state answers a next state (93_implementation_defined.md: "every state that is not halted has
exactly one enabled step per tick"; R84 for a halted one; that a halted tick is a next state is log entry 4). -/
def Obligations.EveryTickAnswers : Prop :=
  ∀ s : State, ∃ t, step s = .next t

/-- A halted tick returns the latched record and changes nothing of the engine, and load does not clear the latch
(R84, R193, R194; the latch is decision D14). -/
def Obligations.HaltedTickChangesNothing : Prop :=
  ∀ (s : State) (r : FaultRecord), s.fault = some r →
    (∃ t, step s = .next t ∧
      t = { s with out := some (.fault r), inputs := s.inputs.tail, ticks := s.ticks + 1 }) ∧
    (∀ bytes, (s.load bytes).fault = some r) ∧ s.hostReset.fault = none

/-- A halted engine stays halted, with the same record, for every number of ticks: faults do not nest and the latch keeps
the first (R193, R194; the latch is decision D14). -/
def Obligations.HaltIsForever : Prop :=
  ∀ (k : Nat) (s : State) (r : FaultRecord), s.fault = some r →
    ∃ t, Host.Core.run core k s = .next t ∧ t.fault = some r ∧
      t = { s with out := t.out, inputs := t.inputs, ticks := t.ticks } ∧ (0 < k → t.out = some (.fault r))

/-- A waiting tick with no key pressed steps the timers and does nothing else: no register, no `PC` change (R85, R86; that
the timers run is decision D9). -/
def Obligations.WaitingTickWithNoKey : Prop :=
  ∀ (s : State) (r : Reg), s.fault = none → s.wait = .waitingForKey r → s.input.keypad = 0 →
    ∃ t, step s = .next t ∧ t.pc = s.pc ∧ KeptBut [] s t ∧ Committed s t false

/-- A waiting tick with a key pressed writes the least pressed key's index to the waiting register, ends the wait, steps
the timers and does nothing else: no opcode runs (R85, R86; decisions D9 and D27). -/
def Obligations.WaitingTickCapturesLeastKey : Prop :=
  ∀ (s : State) (r : Reg), s.fault = none → s.wait = .waitingForKey r → s.input.keypad ≠ 0 →
    ∃ t, step s = .next t ∧ t.pc = s.pc ∧ t.wait = .running ∧
      (∃ k, k < 16 ∧ s.input.keypad.getLsbD k = true ∧ (∀ j, j < k → s.input.keypad.getLsbD j = false) ∧
        (t.reg r).toNat = k) ∧
      (∀ q, q ≠ r → t.reg q = s.reg q) ∧ KeptBut [.regs, .wait] s t ∧ Committed s t false

/-- R91: `changed` is true exactly when the instruction that ran was clear-screen or draw, whatever the pixels did; a
faulting or halted tick produces none; and no state remembers it: what the last tick returned is never read. -/
def Obligations.ChangedExactlyWhenDrawing : Prop :=
  (∀ (s t : State), step s = .next t →
    (∀ o, t.out = some (.ok o) → (o.changed = true ↔ ∃ i, s.nextInstr = some i ∧ i.draws = true)) ∧
    (t.fault ≠ none → ∀ o, t.out ≠ some (.ok o))) ∧
  (∀ (s : State) (o : Option TickResult), step { s with out := o } = step s)

/-- R92: a tick's output is the committed state's: the framebuffer after the tick, and `beep` true exactly when `ST > 0`
after the tick's timer step and after a set-sound of the tick. So set-sound with `V[x] = 1` beeps at once and the next
tick, which is a running one, does not, unless it sets the timer again; set-sound with `V[x] = 0` does not. -/
def Obligations.OutputIsTheStateAfterTheTick : Prop :=
  (∀ (s t : State) (o : OutputState), step s = .next t → t.out = some (.ok o) →
    o.fb = t.fb ∧ (o.beep = true ↔ 0 < t.st.toNat)) ∧
  (∀ (s t : State) (o : OutputState) (x : Reg), s.nextInstr = some (.setSound x) → step s = .next t →
    t.out = some (.ok o) → t.st = s.reg x ∧ (o.beep = true ↔ s.reg x ≠ 0)) ∧
  (∀ (s t : State) (o : OutputState), s.wait = .running → s.st = 1 → (∀ x, s.nextInstr ≠ some (.setSound x)) → step s = .next t →
    t.out = some (.ok o) → o.beep = false)

/-- The keypad latch: a tick that commits ends with this tick's keypad in `KEYS`, and no older value of `KEYS` is ever
read: it changes nothing but itself, and not even that where the tick commits (R25, R83; decision D27). -/
def Obligations.OldKeysAreNeverRead : Prop :=
  ∀ (s t t' : State) (k : KeyMask), step s = .next t → step { s with keys := k } = .next t' →
    { t' with keys := 0 } = { t with keys := 0 } ∧ (t.fault = none → t.keys = s.input.keypad ∧ t' = t)

/-- A tick that does not execute rand ignores `rnd` (R27; `rnd` as a free input is decision D18). -/
def Obligations.OnlyRandReadsRnd : Prop :=
  ∀ (s : State) (keypad : KeyMask) (r r' : Byte) (rest : List TickInput),
    s.inputs = ⟨keypad, r⟩ :: rest → (∀ x kk, s.nextInstr ≠ some (.rand x kk)) →
    step { s with inputs := ⟨keypad, r'⟩ :: rest } = step s

/-- In every tick that commits, each timer goes down by 1 while nonzero, whatever ran or waited, but for the timer that
set-delay or set-sound wrote this tick, which ends as the written value (R86, R175, R176; in waiting ticks by D9). -/
def Obligations.TimersStepEveryTick : Prop :=
  ∀ (s t : State), step s = .next t → t.fault = none →
    ((∀ x, s.nextInstr ≠ some (.setDelay x)) → t.dt.toNat = s.dt.toNat - 1) ∧
    ((∀ x, s.nextInstr ≠ some (.setSound x)) → t.st.toNat = s.st.toNat - 1) ∧
    (∀ x, s.nextInstr = some (.setDelay x) → t.dt = s.reg x) ∧
    (∀ x, s.nextInstr = some (.setSound x) → t.st = s.reg x)

/-- The table of the wait machine (R177): the state it is in, the event, the state it goes to. A waiting tick never
faults (its captured value is another statement's; that the capture tick runs no opcode is decision D27). -/
def Obligations.WaitMachine : Prop :=
  (∀ (s t : State), s.fault = none → step s = .next t →
    (s.wait = .running →
      (∀ x, s.nextInstr = some (.waitKey x) → t.fault = none → t.wait = .waitingForKey x ∧ Advanced s t) ∧
      (((∀ x, s.nextInstr ≠ some (.waitKey x)) ∨ t.fault ≠ none) → t.wait = .running)) ∧
    (∀ r, s.wait = .waitingForKey r → t.fault = none ∧
      (s.input.keypad = 0 → t.wait = .waitingForKey r) ∧ (s.input.keypad ≠ 0 → t.wait = .running))) ∧
  (∀ (s t : State), s.fault ≠ none → step s = .next t → t.wait = s.wait) ∧
  (∀ (s : State) (bytes : List Byte), (s.load bytes).wait = s.wait ∧ s.hostReset.wait = .running)

/-- Who writes what (R11, R15, R16, R22, R24, R55): over one tick, a general register changes only by an instruction that
R11 lets write it or by a key capture, and each other piece of state only by the instructions named for it. -/
def Obligations.WhoWritesWhat : Prop :=
  ∀ (s t : State), step s = .next t →
    (∀ r, t.reg r ≠ s.reg r → (∃ i, s.nextInstr = some i ∧ i.mayWriteReg r = true) ∨ s.wait = .waitingForKey r) ∧
    (t.index ≠ s.index → (∃ nnn, s.nextInstr = some (.loadI nnn)) ∨ ∃ x, s.nextInstr = some (.addI x) ∨ s.nextInstr = some (.fontAddr x)) ∧
    ((t.sp ≠ s.sp ∨ t.stack ≠ s.stack) → s.nextInstr = some .ret ∨ ∃ nnn, s.nextInstr = some (.call nnn)) ∧
    (t.wait ≠ s.wait → (∃ x, s.nextInstr = some (.waitKey x)) ∨ ∃ r, s.wait = .waitingForKey r) ∧
    (t.fb ≠ s.fb → ∃ i, s.nextInstr = some i ∧ i.draws = true) ∧
    (t.ram ≠ s.ram → ∃ x, s.nextInstr = some (.bcd x) ∨ s.nextInstr = some (.storeRegs x))

/-- Stale stack entries, those at or above `SP`, can never be seen: two states that differ only there take steps to two
states that differ only there (R17). -/
def Obligations.StaleStackEntriesAreUnobservable : Prop :=
  ∀ (s s' t t' : State), SameLive s s' → step s = .next t → step s' = .next t' → SameLive t t'

/-! ## Faults (60_exceptions.md) -/

/-- The complete fault table: an instruction raises exactly the fault that R190, R195 and R198 give it in that state, and
then nothing else happened; where they give none it commits, so every instruction completes exactly where the tables say
(decisions D7, D13, D14, D16, D30). -/
def Obligations.FaultsExactlyByTheTable : Prop :=
  ∀ (i : Instr) (s : State), ∃ t, exec i s = .next t ∧
    (∀ k, faultOf i s = some k → FaultTaken s t k (encode i)) ∧ (faultOf i s = none → Committed s t i.draws)

/-- A tick that faults commits nothing but the latch: the state after is the state before plus the record, whose opcode is
the one fetched (0 where none was) and whose address is `PC` (R90, R191, R192; decision D14). -/
def Obligations.FaultCommitsNothing : Prop :=
  ∀ (s t : State), s.fault = none → step s = .next t → t.fault ≠ none →
    ∃ k, FaultTaken s t k (s.fetch.getD 0) ∧ (k = .fetchOutOfBounds ↔ s.fetch = none)

/-- The order of faults (R195), for every instruction that can raise one of its own and also has a PC action or a return
address that does not fit: where there is no room to advance, bcd, store-regs, load-regs and draw past RAM raise
`MemoryOutOfBounds`, both key skips with a key number above 15 `KeyIndexOutOfRange`, and call on a full stack `StackOverflow`,
none of them `PcOutOfRange`; return, whose PC action always fits, raises `StackUnderflow` (decisions D13, D14, D16, D25, D30;
logs 15, 16, 23, 28; vectors T9, X10, X11). -/
def Obligations.HandlerFaultComesFirst : Prop :=
  ∀ (s : State) (x y : Reg) (n : Fin 16) (nnn : Addr), ¬ CanAdvance s →
    (0xFFF < s.index.toNat + 2 → ∃ t, exec (.bcd x) s = .next t ∧
      t.fault = some ⟨.memoryOutOfBounds, encode (.bcd x), s.pc⟩) ∧
    (0xFFF < s.index.toNat + x.val → ∃ t, exec (.storeRegs x) s = .next t ∧
      t.fault = some ⟨.memoryOutOfBounds, encode (.storeRegs x), s.pc⟩) ∧
    (0xFFF < s.index.toNat + x.val → ∃ t, exec (.loadRegs x) s = .next t ∧
      t.fault = some ⟨.memoryOutOfBounds, encode (.loadRegs x), s.pc⟩) ∧
    (0 < n.val → 0xFFF < s.index.toNat + (n.val - 1) → ∃ t, exec (.draw x y n) s = .next t ∧
      t.fault = some ⟨.memoryOutOfBounds, encode (.draw x y n), s.pc⟩) ∧
    (15 < (s.reg x).toNat → ∃ t, exec (.skipKeyPressed x) s = .next t ∧
      t.fault = some ⟨.keyIndexOutOfRange, encode (.skipKeyPressed x), s.pc⟩) ∧
    (15 < (s.reg x).toNat → ∃ t, exec (.skipKeyNotPressed x) s = .next t ∧
      t.fault = some ⟨.keyIndexOutOfRange, encode (.skipKeyNotPressed x), s.pc⟩) ∧
    (s.sp.val = 16 → ∃ t, exec (.call nnn) s = .next t ∧ t.fault = some ⟨.stackOverflow, encode (.call nnn), s.pc⟩) ∧
    (s.sp.val = 0 → ∃ t, exec .ret s = .next t ∧ t.fault = some ⟨.stackUnderflow, encode .ret, s.pc⟩)

/-! ## Reset, load, the invariant (70_reset_and_hazards.md) -/

/-- What `reset` leaves (R31, R220): `PC = 0x200`, `Running`, no fault; and by decisions D4, D5 and D6 every register,
timer, stack entry and pixel zero, the 80 bytes of R43 from `0x000` on, written out glyph by glyph, and zeros after them (logs
7, 8, 9). The model's own fields are not the spec's. -/
def Obligations.ResetState : Prop :=
  State.reset.pc = 0x200 ∧ State.reset.wait = .running ∧ State.reset.fault = none ∧
  (∀ r, State.reset.reg r = 0) ∧ State.reset.index = 0 ∧ State.reset.sp = 0 ∧
  (∀ k : Fin Config.stackDepth, State.reset.stack[k.val] = 0) ∧ State.reset.dt = 0 ∧ State.reset.st = 0 ∧
  State.reset.keys = 0 ∧ (∀ r c, State.reset.pixel r c = false) ∧
  ((List.range 80).map fun a => (State.reset.memRead (BitVec.ofNat 12 a)).toNat) =
    ([0xF0, 0x90, 0x90, 0x90, 0xF0, 0x20, 0x60, 0x20, 0x20, 0x70, 0xF0, 0x10, 0xF0, 0x80, 0xF0, 0xF0, 0x10, 0xF0, 0x10, 0xF0] ++
      ([0x90, 0x90, 0xF0, 0x10, 0x10, 0xF0, 0x80, 0xF0, 0x10, 0xF0, 0xF0, 0x80, 0xF0, 0x90, 0xF0, 0xF0, 0x10, 0x20, 0x40, 0x40] ++
      ([0xF0, 0x90, 0xF0, 0x90, 0xF0, 0xF0, 0x90, 0xF0, 0x10, 0xF0, 0xF0, 0x90, 0xF0, 0x90, 0x90, 0xE0, 0x90, 0xE0, 0x90, 0xE0] ++
      [0xF0, 0x80, 0x80, 0x80, 0xF0, 0xE0, 0x90, 0x90, 0x90, 0xE0, 0xF0, 0x80, 0xF0, 0x80, 0xF0, 0xF0, 0x80, 0xF0, 0x80, 0x80]))) ∧
  (∀ a : Addr, 80 ≤ a.toNat → State.reset.memRead a = 0)

/-- `reset` at any time gives the reset state, whatever came before, a halt included; only what the host has ready for the
coming ticks stays (R194, R220; decision D28, log entry 1). -/
def Obligations.HostResetForgetsEverything : Prop :=
  ∀ s : State, s.hostReset = { State.reset with inputs := s.inputs, ticks := s.ticks }

/-- `load(bytes)` puts byte `j` at `0x200 + j`, drops the bytes that would land past `0xFFF`, and changes nothing else, in
any state (R81; that it may be called at any time is decision D20). -/
def Obligations.LoadWritesProgramOnly : Prop :=
  ∀ (s : State) (bytes : List Byte),
    (∀ a : Addr, (s.load bytes).memRead a =
      if 0x200 ≤ a.toNat ∧ a.toNat - 0x200 < bytes.length then bytes.getD (a.toNat - 0x200) 0 else s.memRead a) ∧
    { s.load bytes with ram := s.ram } = s

/-- The reset state meets the invariant. -/
def Obligations.ResetMeetsInvariant : Prop := State.reset.Inv

/-- Every tick keeps the invariant: RAM in canonical form, a latched fault that names `PC` and the opcode standing there,
a result that shows the state (R28, R90 to R93, R191, R192). -/
def Obligations.EveryTickKeepsInvariant : Prop :=
  ∀ (s t : State), s.Inv → step s = .next t → t.Inv

/-! ## Control transfer (41_control_transfer.md) -/

/-- The eight instructions of R100 write no general register, `VF`, `I`, timer, RAM or framebuffer, set no `changed`, and
move `PC` only to their target or past what they skip: return to the address popped, call and jump to `nnn`, jump-v0 to
`V[0] + nnn`, the four skips by equality of unsigned bytes alone. call's return address goes to the stack, nowhere else. -/
def Obligations.ControlTransferCommon : Prop :=
  ∀ (i : Instr) (s t : State), exec i s = .next t → t.fault = none → s.fault = none →
    (∀ nnn, i = .jump nnn → KeptBut [] s t ∧ Committed s t false ∧ t.pc = nnn) ∧
    (∀ nnn, i = .jumpV0 nnn → KeptBut [] s t ∧ Committed s t false ∧ t.pc.toNat = (s.reg 0).toNat + nnn.toNat) ∧
    (∀ nnn, i = .call nnn → KeptBut [.stack] s t ∧ Committed s t false ∧ t.pc = nnn ∧
      ∀ k : Fin Config.stackDepth, (t.stack[k.val]).toNat = if k.val = s.sp.val then s.pc.toNat + 2 else (s.stack[k.val]).toNat) ∧
    (i = .ret → KeptBut [.stack] s t ∧ Committed s t false ∧
      ∀ k : Fin Config.stackDepth, k.val + 1 = s.sp.val → t.pc = s.stack[k.val]) ∧
    (∀ x kk, i = .skipEqImm x kk → SkipsIf ((s.reg x).toNat = kk.toNat) s t) ∧
    (∀ x kk, i = .skipNeqImm x kk → SkipsIf ((s.reg x).toNat ≠ kk.toNat) s t) ∧
    (∀ x y, i = .skipEqReg x y → SkipsIf ((s.reg x).toNat = (s.reg y).toNat) s t) ∧
    (∀ x y, i = .skipNeqReg x y → SkipsIf ((s.reg x).toNat ≠ (s.reg y).toNat) s t)

/-- return pops: `SP` down by 1, `PC` the popped address as it is, the entry left where it was; with `SP = 0` it raises
`StackUnderflow` and nothing changes (R101; the form of the fault is decision D14). -/
def Obligations.ReturnPops : Prop :=
  ∀ s : State,
    (∀ k : Fin Config.stackDepth, s.sp.val = k.val + 1 → ∃ t, exec .ret s = .next t ∧ t.pc = s.stack[k.val] ∧
      t.sp.val = k.val ∧ t.stack = s.stack ∧ KeptBut [.stack] s t ∧ Committed s t false) ∧
    (s.sp.val = 0 → ∃ t, exec .ret s = .next t ∧ FaultTaken s t .stackUnderflow (encode .ret))

/-- jump goes to `nnn`, from any `PC` and to any address, itself and `0xFFF` included, and never faults (R102). -/
def Obligations.JumpGoesToTarget : Prop :=
  ∀ (nnn : Addr) (s : State), ∃ t, exec (.jump nnn) s = .next t ∧ t.pc = nnn ∧ KeptBut [] s t ∧ Committed s t false

/-- call pushes the address after itself and jumps; with `SP = 16` it raises `StackOverflow`, else with no room for its
return address `PcOutOfRange` (R103; decisions D14 and D30). -/
def Obligations.CallPushes : Prop :=
  ∀ (nnn : Addr) (s : State),
    (∀ k : Fin Config.stackDepth, s.sp.val = k.val → CanAdvance s → ∃ t, exec (.call nnn) s = .next t ∧ t.pc = nnn ∧
      t.sp.val = k.val + 1 ∧ (t.stack[k.val]).toNat = s.pc.toNat + 2 ∧
      (∀ j : Fin Config.stackDepth, j ≠ k → t.stack[j.val] = s.stack[j.val]) ∧ KeptBut [.stack] s t ∧ Committed s t false) ∧
    (s.sp.val = 16 → ∃ t, exec (.call nnn) s = .next t ∧ FaultTaken s t .stackOverflow (encode (.call nnn))) ∧
    (s.sp.val < 16 → ¬ CanAdvance s → ∃ t, exec (.call nnn) s = .next t ∧ FaultTaken s t .pcOutOfRange (encode (.call nnn)))

/-- The round trip of R103: after a call, a return from any state with the same `SP` and stack, whatever else has changed
meanwhile, comes back to the instruction after the call with `SP` as before the call. -/
def Obligations.CallReturnRoundTrip : Prop :=
  ∀ (nnn : Addr) (s t u : State), s.fault = none → exec (.call nnn) s = .next t → t.fault = none →
    u.sp = t.sp → u.stack = t.stack →
    ∃ v, exec .ret u = .next v ∧ v.pc.toNat = s.pc.toNat + 2 ∧ v.sp = s.sp ∧ v.fault = u.fault

/-- jump-v0 goes to `V[0] + nnn`, always by `V[0]`, without wrapping; a sum above `0xFFF` raises `PcOutOfRange` (R104;
decision D7). -/
def Obligations.JumpV0AddsV0 : Prop :=
  ∀ (nnn : Addr) (s : State),
    ((s.reg 0).toNat + nnn.toNat ≤ 0xFFF → ∃ t, exec (.jumpV0 nnn) s = .next t ∧
      t.pc.toNat = (s.reg 0).toNat + nnn.toNat ∧ KeptBut [] s t ∧ Committed s t false) ∧
    (0xFFF < (s.reg 0).toNat + nnn.toNat → ∃ t, exec (.jumpV0 nnn) s = .next t ∧
      FaultTaken s t .pcOutOfRange (encode (.jumpV0 nnn)))

/-- The four skips on registers and immediates complete wherever there is room to skip, and where there is room only to
advance and the condition fails; a skip taken past the end raises `PcOutOfRange` (R105 to R108; decision D7). -/
def Obligations.SkipsOnRegisters : Prop :=
  ∀ (x y : Reg) (kk : Byte) (s : State),
    (CanSkip s ∨ (CanAdvance s ∧ s.reg x ≠ kk) → ∃ t, exec (.skipEqImm x kk) s = .next t ∧ SkipsIf (s.reg x = kk) s t) ∧
    (CanSkip s ∨ (CanAdvance s ∧ s.reg x = kk) → ∃ t, exec (.skipNeqImm x kk) s = .next t ∧ SkipsIf (s.reg x ≠ kk) s t) ∧
    (CanSkip s ∨ (CanAdvance s ∧ s.reg x ≠ s.reg y) → ∃ t, exec (.skipEqReg x y) s = .next t ∧ SkipsIf (s.reg x = s.reg y) s t) ∧
    (CanSkip s ∨ (CanAdvance s ∧ s.reg x = s.reg y) → ∃ t, exec (.skipNeqReg x y) s = .next t ∧ SkipsIf (s.reg x ≠ s.reg y) s t) ∧
    (¬ CanSkip s → s.reg x = kk → ∃ t, exec (.skipEqImm x kk) s = .next t ∧
      FaultTaken s t .pcOutOfRange (encode (.skipEqImm x kk))) ∧
    (¬ CanSkip s → s.reg x ≠ kk → ∃ t, exec (.skipNeqImm x kk) s = .next t ∧
      FaultTaken s t .pcOutOfRange (encode (.skipNeqImm x kk))) ∧
    (¬ CanSkip s → s.reg x = s.reg y → ∃ t, exec (.skipEqReg x y) s = .next t ∧
      FaultTaken s t .pcOutOfRange (encode (.skipEqReg x y))) ∧
    (¬ CanSkip s → s.reg x ≠ s.reg y → ∃ t, exec (.skipNeqReg x y) s = .next t ∧
      FaultTaken s t .pcOutOfRange (encode (.skipNeqReg x y)))

/-! ## Registers and ALU (42_alu.md) -/

/-- load-imm, add-imm and load-reg write `V[x]` and nothing else, any of the 16 registers alike; add-imm wraps at 256 and
touches no flag (R121, R122, R123). -/
def Obligations.LoadsAndAddImm : Prop :=
  ∀ (x y : Reg) (kk : Byte) (s : State), CanAdvance s →
    (∃ t, exec (.loadImm x kk) s = .next t ∧ t.reg x = kk ∧ OnlyReg x s t) ∧
    (∃ t, exec (.addImm x kk) s = .next t ∧ (t.reg x).toNat = ((s.reg x).toNat + kk.toNat) % 256 ∧ OnlyReg x s t) ∧
    (∃ t, exec (.loadReg x y) s = .next t ∧ t.reg x = s.reg y ∧ OnlyReg x s t)

/-- or, and, xor work on all 8 bits of `V[x]` and `V[y]`, write `V[x]`, and leave `VF` alone unless `x = 15` (R124, R125,
R126; that they touch no flag is decision D29). -/
def Obligations.LogicOnAllBits : Prop :=
  ∀ (x y : Reg) (s : State), CanAdvance s →
    (∃ t, exec (.orReg x y) s = .next t ∧
      (∀ k, (t.reg x).getLsbD k = ((s.reg x).getLsbD k || (s.reg y).getLsbD k)) ∧ OnlyReg x s t) ∧
    (∃ t, exec (.andReg x y) s = .next t ∧
      (∀ k, (t.reg x).getLsbD k = ((s.reg x).getLsbD k && (s.reg y).getLsbD k)) ∧ OnlyReg x s t) ∧
    (∃ t, exec (.xorReg x y) s = .next t ∧
      (∀ k, (t.reg x).getLsbD k = Bool.xor ((s.reg x).getLsbD k) ((s.reg y).getLsbD k)) ∧ OnlyReg x s t)

/-- The arithmetic laws of R133: addition `(a + b) mod 256` with carry when `a + b > 255`; subtraction `(a + 256 - b) mod
256`, flag 1 when `a >= b`, so 0 and 1 at `a = b`; shifts by one place, logical, `a >> 1` and `(a << 1) mod 256`; bitwise
operations on all 8 bits. Operands are unsigned, and whatever they are, the tick
commits: there is no overflow trap. The result stands in `V[x]`, but where `x = 15`
and the instruction has a flag: there the flag stands (decision D12, log 14), and
the operands are the registers as they were, `y = 15` included (D12). The shifts are of `V[x]`, `y` ignored (D29, log 27). -/
def Obligations.ArithmeticLaws : Prop :=
  ∀ (x y : Reg) (s : State), CanAdvance s →
    (∃ t, exec (.addReg x y) s = .next t ∧ Committed s t false ∧
      (x ≠ VF → (t.reg x).toNat = ((s.reg x).toNat + (s.reg y).toNat) % 256) ∧
      (t.reg VF).toNat = if (s.reg x).toNat + (s.reg y).toNat > 255 then 1 else 0) ∧
    (∃ t, exec (.sub x y) s = .next t ∧ Committed s t false ∧
      (x ≠ VF → (t.reg x).toNat = ((s.reg x).toNat + 256 - (s.reg y).toNat) % 256 ∧
        (s.reg x = s.reg y → (t.reg x).toNat = 0)) ∧
      (t.reg VF).toNat = (if (s.reg x).toNat ≥ (s.reg y).toNat then 1 else 0)) ∧
    (∃ t, exec (.subn x y) s = .next t ∧ Committed s t false ∧
      (x ≠ VF → (t.reg x).toNat = ((s.reg y).toNat + 256 - (s.reg x).toNat) % 256 ∧
        (s.reg x = s.reg y → (t.reg x).toNat = 0)) ∧
      (t.reg VF).toNat = (if (s.reg y).toNat ≥ (s.reg x).toNat then 1 else 0)) ∧
    (∃ t, exec (.shr x y) s = .next t ∧ Committed s t false ∧
      (x ≠ VF → (t.reg x).toNat = (s.reg x).toNat / 2 ∧ (t.reg x).getLsbD 7 = false)) ∧
    (∃ t, exec (.shl x y) s = .next t ∧ Committed s t false ∧
      (x ≠ VF → (t.reg x).toNat = (s.reg x).toNat * 2 % 256 ∧ (t.reg x).getLsbD 0 = false)) ∧
    (∃ t, exec (.orReg x y) s = .next t ∧ Committed s t false ∧
      ∀ k, k < 8 → (t.reg x).getLsbD k = ((s.reg x).getLsbD k || (s.reg y).getLsbD k)) ∧
    (∃ t, exec (.andReg x y) s = .next t ∧ Committed s t false ∧
      ∀ k, k < 8 → (t.reg x).getLsbD k = ((s.reg x).getLsbD k && (s.reg y).getLsbD k)) ∧
    (∃ t, exec (.xorReg x y) s = .next t ∧ Committed s t false ∧
      ∀ k, k < 8 → (t.reg x).getLsbD k = Bool.xor ((s.reg x).getLsbD k) ((s.reg y).getLsbD k))

/-- The five flag-writing instructions of the ALU: operands as they were before, the flag in `VF` whatever `x` is (with
`x = 15` it replaces the result), every register but `V[x]` and `VF` alone, and the `y` of the shifts ignored (R12, R120,
R127 to R131; the order of the two writes is decision D12, the ignored `y` D29). -/
def Obligations.FlagIsWrittenLast : Prop :=
  ∀ (x y : Reg) (s : State), CanAdvance s →
    (∃ t, exec (.addReg x y) s = .next t ∧ RegAndFlag x (decide ((s.reg x).toNat + (s.reg y).toNat > 255)) s t) ∧
    (∃ t, exec (.sub x y) s = .next t ∧ RegAndFlag x (decide ((s.reg x).toNat ≥ (s.reg y).toNat)) s t) ∧
    (∃ t, exec (.subn x y) s = .next t ∧ RegAndFlag x (decide ((s.reg y).toNat ≥ (s.reg x).toNat)) s t) ∧
    (∃ t, exec (.shr x y) s = .next t ∧ RegAndFlag x ((s.reg x).getLsbD 0) s t ∧
      ∀ y' u, exec (.shr x y') s = .next u → u = t) ∧
    (∃ t, exec (.shl x y) s = .next t ∧ RegAndFlag x ((s.reg x).getLsbD 7) s t ∧
      ∀ y' u, exec (.shl x y') s = .next u → u = t)

/-- rand writes this tick's `rnd` masked by `kk`, for every `rnd`; so no bit outside `kk` is set, `kk = 0` gives 0 and
`kk = 0xFF` gives `rnd` itself (R132; `rnd` as a free input is decision D18). -/
def Obligations.RandMasksTheInput : Prop :=
  ∀ (x : Reg) (kk : Byte) (s : State), CanAdvance s →
    ∃ t, exec (.rand x kk) s = .next t ∧ (∀ k, (t.reg x).getLsbD k = (s.input.rnd.getLsbD k && kk.getLsbD k)) ∧
      (kk = 0 → t.reg x = 0) ∧ (kk = 0xFF → t.reg x = s.input.rnd) ∧ OnlyReg x s t

/-! ## Index register and memory (43_index_and_memory.md) -/

/-- load-I, add-I and font-addr write `I` and nothing else: `nnn`; the sum modulo `2^16`, with no flag and no fault at the
add; five times the whole byte (R141, R142, R143; decisions D10 and D11 for add-I). -/
def Obligations.IndexWrites : Prop :=
  ∀ (x : Reg) (nnn : Addr) (s : State), CanAdvance s →
    (∃ t, exec (.loadI nnn) s = .next t ∧ t.index.toNat = nnn.toNat ∧ Advanced s t ∧ KeptBut [.index] s t ∧ Committed s t false) ∧
    (∃ t, exec (.addI x) s = .next t ∧ t.index.toNat = (s.index.toNat + (s.reg x).toNat) % 65536 ∧ Advanced s t ∧
      KeptBut [.index] s t ∧ Committed s t false) ∧
    (∃ t, exec (.fontAddr x) s = .next t ∧ t.index.toNat = (s.reg x).toNat * 5 ∧ Advanced s t ∧
      KeptBut [.index] s t ∧ Committed s t false)

/-- bcd stores the hundreds, tens and ones digit of `V[x]` at `I`, `I + 1`, `I + 2`, and changes no other byte and no
register, `I` included (R144, R140; decision D29, log 27, for `I`). -/
def Obligations.BcdStoresDigits : Prop :=
  ∀ (x : Reg) (s : State), CanAdvance s → s.index.toNat + 2 ≤ 0xFFF →
    ∃ t, exec (.bcd x) s = .next t ∧
      (t.memRead (effAddr s.index 0)).toNat = (s.reg x).toNat / 100 ∧
      (t.memRead (effAddr s.index 1)).toNat = (s.reg x).toNat / 10 % 10 ∧
      (t.memRead (effAddr s.index 2)).toNat = (s.reg x).toNat % 10 ∧
      (∀ a : Addr, a.toNat < s.index.toNat ∨ s.index.toNat + 2 < a.toNat → t.memRead a = s.memRead a) ∧
      Advanced s t ∧ KeptBut [.ram] s t ∧ Committed s t false

/-- store-regs stores `V[k]` at `I + k` for `k` from 0 to `x`, and changes no other byte and no register, `I` included
(R145, R140; decision D29 for `I`). -/
def Obligations.StoreRegsStoresRun : Prop :=
  ∀ (x : Reg) (s : State), CanAdvance s → s.index.toNat + x.val ≤ 0xFFF →
    ∃ t, exec (.storeRegs x) s = .next t ∧ (∀ k : Reg, k ≤ x → t.memRead (effAddr s.index k.val) = s.reg k) ∧
      (∀ a : Addr, a.toNat < s.index.toNat ∨ s.index.toNat + x.val < a.toNat → t.memRead a = s.memRead a) ∧
      Advanced s t ∧ KeptBut [.ram] s t ∧ Committed s t false

/-- load-regs loads `V[k]` from `I + k` for `k` from 0 to `x`, and changes no register above `V[x]`, no byte of RAM, and
not `I` (R146, R140; decision D29 for `I`). -/
def Obligations.LoadRegsLoadsRun : Prop :=
  ∀ (x : Reg) (s : State), CanAdvance s → s.index.toNat + x.val ≤ 0xFFF →
    ∃ t, exec (.loadRegs x) s = .next t ∧ (∀ k : Reg, k ≤ x → t.reg k = s.memRead (effAddr s.index k.val)) ∧
      (∀ k : Reg, x < k → t.reg k = s.reg k) ∧ Advanced s t ∧ KeptBut [.regs] s t ∧ Committed s t false

/-- The bounds check of the four instructions that use `I` as an address: the last offset past `0xFFF`, with no
wrap-around, raises `MemoryOutOfBounds` and nothing was read, written or changed; draw with `n = 0` checks nothing: whatever `I`
is, it commits (R46; decisions D14, D23 and D25; logs 16, 21, 23). -/
def Obligations.IndexPastRamFaults : Prop :=
  ∀ (x y : Reg) (n : Fin 16) (s : State),
    (0xFFF < s.index.toNat + 2 → ∃ t, exec (.bcd x) s = .next t ∧ FaultTaken s t .memoryOutOfBounds (encode (.bcd x))) ∧
    (0xFFF < s.index.toNat + x.val → ∃ t, exec (.storeRegs x) s = .next t ∧
      FaultTaken s t .memoryOutOfBounds (encode (.storeRegs x))) ∧
    (0xFFF < s.index.toNat + x.val → ∃ t, exec (.loadRegs x) s = .next t ∧
      FaultTaken s t .memoryOutOfBounds (encode (.loadRegs x))) ∧
    (0 < n.val → 0xFFF < s.index.toNat + (n.val - 1) → ∃ t, exec (.draw x y n) s = .next t ∧
      FaultTaken s t .memoryOutOfBounds (encode (.draw x y n))) ∧
    (n.val = 0 → CanAdvance s → ∃ t, exec (.draw x y n) s = .next t ∧ Committed s t true ∧ t.fb = s.fb)

/-- A store is seen by the very next fetch, wherever the stored run meets the two bytes fetched there: after any store-regs,
and after any bcd, each of the two bytes is what was stored to it, and what RAM held where nothing was stored. The same holds of
a `load` before the first fetch from `0x200` (R53, R47; decision D26, log 24). -/
def Obligations.StoresAreFetched : Prop :=
  (∀ (x : Reg) (s : State), s.pc.toNat + 3 ≤ 0xFFF → s.index.toNat + x.val ≤ 0xFFF →
    ∃ t w, exec (.storeRegs x) s = .next t ∧ t.fetch = some w ∧
      (∀ k : Reg, k ≤ x → s.index.toNat + k.val = s.pc.toNat + 2 → w.toNat / 256 = (s.reg k).toNat) ∧
      (∀ k : Reg, k ≤ x → s.index.toNat + k.val = s.pc.toNat + 3 → w.toNat % 256 = (s.reg k).toNat) ∧
      ((∀ k : Reg, k ≤ x → s.index.toNat + k.val ≠ s.pc.toNat + 2) → w.toNat / 256 = (s.memRead (s.pc + 2)).toNat) ∧
      ((∀ k : Reg, k ≤ x → s.index.toNat + k.val ≠ s.pc.toNat + 3) → w.toNat % 256 = (s.memRead (s.pc + 3)).toNat)) ∧
  (∀ (x : Reg) (s : State), s.pc.toNat + 3 ≤ 0xFFF → s.index.toNat + 2 ≤ 0xFFF →
    ∃ t w, exec (.bcd x) s = .next t ∧ t.fetch = some w ∧
      (s.index.toNat = s.pc.toNat + 2 →
        w.toNat = (s.reg x).toNat / 100 * 256 + (s.reg x).toNat / 10 % 10) ∧
      (s.index.toNat + 1 = s.pc.toNat + 2 → w.toNat = (s.reg x).toNat / 10 % 10 * 256 + (s.reg x).toNat % 10) ∧
      (s.index.toNat + 2 = s.pc.toNat + 2 →
        w.toNat = (s.reg x).toNat % 10 * 256 + (s.memRead (s.pc + 3)).toNat) ∧
      (s.index.toNat = s.pc.toNat + 3 → w.toNat = (s.memRead (s.pc + 2)).toNat * 256 + (s.reg x).toNat / 100)) ∧
  (∀ (s : State) (hi lo : Byte) (rest : List Byte), s.pc = 0x200 →
    ∃ w, (s.load (hi :: lo :: rest)).fetch = some w ∧ w.toNat = hi.toNat * 256 + lo.toNat)

/-! ## Display (44_display.md; HEIGHT = 32 is decision D3, the packing of a row D17) -/

/-- clear-screen turns every pixel off, whether any was on or not, sets `changed`, and leaves `VF` and everything else
alone (R160). -/
def Obligations.ClearScreenClears : Prop :=
  ∀ s : State, CanAdvance s → ∃ t, exec .clearScreen s = .next t ∧ (∀ r c, t.pixel r c = false) ∧ Advanced s t ∧
    KeptBut [.display] s t ∧ Committed s t true

/-- draw, pixel by pixel: every pixel under a 1 of the sprite is flipped, wrapping round both edges, and no other; `VF` is
1 exactly when a pixel that was on was flipped, else 0; no other register, no RAM and not `I` changes; with `n = 0`
nothing is drawn and no bound is checked (R161 to R165; decisions D3, D12, D17, D23). -/
def Obligations.DrawFlipsSpritePixels : Prop :=
  ∀ (x y : Reg) (n : Fin 16) (s : State), CanAdvance s → (n.val = 0 ∨ s.index.toNat + (n.val - 1) ≤ 0xFFF) →
    ∃ t, exec (.draw x y n) s = .next t ∧
      (∀ r c, t.pixel r c = Bool.xor (s.pixel r c) (spritePixel s x y n r c)) ∧
      ((∃ r c, s.pixel r c = true ∧ spritePixel s x y n r c = true) → t.reg VF = 1) ∧
      ((¬ ∃ r c, s.pixel r c = true ∧ spritePixel s x y n r c = true) → t.reg VF = 0) ∧
      (∀ r, r ≠ VF → t.reg r = s.reg r) ∧ Advanced s t ∧ KeptBut [.regs, .display] s t ∧ Committed s t true

/-- Drawing the same sprite twice at the same place takes it away again, whatever was on the display, and the second draw
reports a collision exactly when some sprite pixel was off before the first (on a clear display: when the sprite has a
pixel). The coordinates stand in registers other than `VF`, which the first draw writes (R163). -/
def Obligations.DrawTwiceErases : Prop :=
  ∀ (x y : Reg) (n : Fin 16) (s t u : State), x ≠ VF → y ≠ VF → s.fault = none → exec (.draw x y n) s = .next t →
    t.fault = none → exec (.draw x y n) t = .next u → u.fault = none →
    u.fb = s.fb ∧ (u.reg VF = 1 ↔ ∃ r c, spritePixel s x y n r c = true ∧ s.pixel r c = false)

/-- The row mask of R162: bit `7 - j` of the sprite byte goes to column `(cx + j) mod 64` and no other column is set; for
`cx <= 56` it is the byte shifted up by `56 - cx` (decision D17 for the packing). -/
def Obligations.RowMaskWraps : Prop :=
  ∀ (b : Byte) (cx : Fin Config.width),
    (∀ j : Fin 8, (rowMask b cx.val).getLsbD (63 - (cx.val + j.val) % 64) = b.getLsbD (7 - j.val)) ∧
    (∀ c : Fin Config.width, (∀ j : Fin 8, c.val ≠ (cx.val + j.val) % 64) → (rowMask b cx.val).getLsbD (63 - c.val) = false) ∧
    (cx.val ≤ 56 → rowMask b cx.val = b.setWidth 64 <<< (56 - cx.val))

/-! ## Keypad and timers (45_keypad_and_timers.md) -/

/-- The key skips test the bit that `V[x]` names of THIS tick's keypad, wherever the PC action fits; above 15 they raise
`KeyIndexOutOfRange` and nothing changes (R170, R171, R172; decision D13). -/
def Obligations.KeySkips : Prop :=
  ∀ (x : Reg) (s : State),
    ((s.reg x).toNat ≤ 15 → CanSkip s ∨ (CanAdvance s ∧ s.input.keypad.getLsbD (s.reg x).toNat = false) →
      ∃ t, exec (.skipKeyPressed x) s = .next t ∧ SkipsIf (s.input.keypad.getLsbD (s.reg x).toNat = true) s t) ∧
    ((s.reg x).toNat ≤ 15 → CanSkip s ∨ (CanAdvance s ∧ s.input.keypad.getLsbD (s.reg x).toNat = true) →
      ∃ t, exec (.skipKeyNotPressed x) s = .next t ∧ SkipsIf (s.input.keypad.getLsbD (s.reg x).toNat = false) s t) ∧
    (15 < (s.reg x).toNat →
      (∃ t, exec (.skipKeyPressed x) s = .next t ∧ FaultTaken s t .keyIndexOutOfRange (encode (.skipKeyPressed x))) ∧
      (∃ t, exec (.skipKeyNotPressed x) s = .next t ∧ FaultTaken s t .keyIndexOutOfRange (encode (.skipKeyNotPressed x))))

/-- read-delay reads `DT` after this tick's timer step; set-delay and set-sound overwrite the stepped timer, so that the
tick ends with `V[x]` in it; each changes nothing else (R173, R175, R176). -/
def Obligations.TimerInstructions : Prop :=
  ∀ (x : Reg) (s : State), CanAdvance s →
    (∃ t, exec (.readDelay x) s = .next t ∧ (t.reg x).toNat = s.dt.toNat - 1 ∧ OnlyReg x s t) ∧
    (∃ t, exec (.setDelay x) s = .next t ∧ t.dt = s.reg x ∧ Advanced s t ∧ KeptBut [.delay] s t ∧ Committed s t false) ∧
    (∃ t, exec (.setSound x) s = .next t ∧ t.st = s.reg x ∧ Advanced s t ∧ KeptBut [.sound] s t ∧ Committed s t false)

/-- wait-key enters the wait for its register with `PC` already past it, captures nothing whatever is pressed, and changes
nothing else (R174). -/
def Obligations.WaitKeyEntersWait : Prop :=
  ∀ (x : Reg) (s : State), CanAdvance s →
    ∃ t, exec (.waitKey x) s = .next t ∧ t.wait = .waitingForKey x ∧ Advanced s t ∧ KeptBut [.wait] s t ∧ Committed s t false
end

