-- ==== Sys2Proof/Laws/State.lean ====
section
/-! SUPPORT. One lemma per field per state update, true by rfl, so that no proof unfolds a record update; then what each
accessor reads through an update. -/

namespace Sys2Proof.Machine

/-! ## The parameters as numbers -/

@[simp] theorem ramSize_eq : Config.ramSize = 4096 := rfl
@[simp] theorem instrWidth_eq : Config.instrWidth = 2 := rfl
@[simp] theorem stackDepth_eq : Config.stackDepth = 16 := rfl
@[simp] theorem height_eq : Config.height = 32 := rfl
@[simp] theorem width_eq : Config.width = 64 := rfl
@[simp] theorem progBase_toNat : Config.progBase.toNat = 0x200 := rfl
@[simp] theorem pcTarget_advance (pc : Addr) : pcTarget pc .advance = pc.toNat + 2 := rfl
@[simp] theorem pcTarget_skip (pc : Addr) : pcTarget pc .skip = pc.toNat + 4 := rfl
@[simp] theorem pcTarget_jump (pc : Addr) (a : Nat) : pcTarget pc (.jump a) = a := rfl

/-! ## setReg -/

@[simp] theorem State.setReg_v (s : State) (r : Reg) (b : Byte) : (s.setReg r b).v = s.v.set r.val b r.isLt := rfl
@[simp] theorem State.setReg_pc (s : State) (r : Reg) (b : Byte) : (s.setReg r b).pc = s.pc := rfl
@[simp] theorem State.setReg_index (s : State) (r : Reg) (b : Byte) : (s.setReg r b).index = s.index := rfl
@[simp] theorem State.setReg_sp (s : State) (r : Reg) (b : Byte) : (s.setReg r b).sp = s.sp := rfl
@[simp] theorem State.setReg_stack (s : State) (r : Reg) (b : Byte) : (s.setReg r b).stack = s.stack := rfl
@[simp] theorem State.setReg_dt (s : State) (r : Reg) (b : Byte) : (s.setReg r b).dt = s.dt := rfl
@[simp] theorem State.setReg_st (s : State) (r : Reg) (b : Byte) : (s.setReg r b).st = s.st := rfl
@[simp] theorem State.setReg_wait (s : State) (r : Reg) (b : Byte) : (s.setReg r b).wait = s.wait := rfl
@[simp] theorem State.setReg_keys (s : State) (r : Reg) (b : Byte) : (s.setReg r b).keys = s.keys := rfl
@[simp] theorem State.setReg_fault (s : State) (r : Reg) (b : Byte) : (s.setReg r b).fault = s.fault := rfl
@[simp] theorem State.setReg_fb (s : State) (r : Reg) (b : Byte) : (s.setReg r b).fb = s.fb := rfl
@[simp] theorem State.setReg_ram (s : State) (r : Reg) (b : Byte) : (s.setReg r b).ram = s.ram := rfl
@[simp] theorem State.setReg_inputs (s : State) (r : Reg) (b : Byte) : (s.setReg r b).inputs = s.inputs := rfl
@[simp] theorem State.setReg_ticks (s : State) (r : Reg) (b : Byte) : (s.setReg r b).ticks = s.ticks := rfl
@[simp] theorem State.setReg_out (s : State) (r : Reg) (b : Byte) : (s.setReg r b).out = s.out := rfl

/-! ## setWithFlag -/

@[simp] theorem State.setWithFlag_pc (s : State) (x : Reg) (b : Byte) (f : Bool) : (s.setWithFlag x b f).pc = s.pc := rfl
@[simp] theorem State.setWithFlag_index (s : State) (x : Reg) (b : Byte) (f : Bool) : (s.setWithFlag x b f).index = s.index := rfl
@[simp] theorem State.setWithFlag_sp (s : State) (x : Reg) (b : Byte) (f : Bool) : (s.setWithFlag x b f).sp = s.sp := rfl
@[simp] theorem State.setWithFlag_stack (s : State) (x : Reg) (b : Byte) (f : Bool) : (s.setWithFlag x b f).stack = s.stack := rfl
@[simp] theorem State.setWithFlag_dt (s : State) (x : Reg) (b : Byte) (f : Bool) : (s.setWithFlag x b f).dt = s.dt := rfl
@[simp] theorem State.setWithFlag_st (s : State) (x : Reg) (b : Byte) (f : Bool) : (s.setWithFlag x b f).st = s.st := rfl
@[simp] theorem State.setWithFlag_wait (s : State) (x : Reg) (b : Byte) (f : Bool) : (s.setWithFlag x b f).wait = s.wait := rfl
@[simp] theorem State.setWithFlag_keys (s : State) (x : Reg) (b : Byte) (f : Bool) : (s.setWithFlag x b f).keys = s.keys := rfl
@[simp] theorem State.setWithFlag_fault (s : State) (x : Reg) (b : Byte) (f : Bool) : (s.setWithFlag x b f).fault = s.fault := rfl
@[simp] theorem State.setWithFlag_fb (s : State) (x : Reg) (b : Byte) (f : Bool) : (s.setWithFlag x b f).fb = s.fb := rfl
@[simp] theorem State.setWithFlag_ram (s : State) (x : Reg) (b : Byte) (f : Bool) : (s.setWithFlag x b f).ram = s.ram := rfl
@[simp] theorem State.setWithFlag_inputs (s : State) (x : Reg) (b : Byte) (f : Bool) : (s.setWithFlag x b f).inputs = s.inputs := rfl
@[simp] theorem State.setWithFlag_ticks (s : State) (x : Reg) (b : Byte) (f : Bool) : (s.setWithFlag x b f).ticks = s.ticks := rfl
@[simp] theorem State.setWithFlag_out (s : State) (x : Reg) (b : Byte) (f : Bool) : (s.setWithFlag x b f).out = s.out := rfl

/-! ## memWrite -/

@[simp] theorem State.memWrite_v (s : State) (a : Addr) (b : Byte) : (s.memWrite a b).v = s.v := rfl
@[simp] theorem State.memWrite_pc (s : State) (a : Addr) (b : Byte) : (s.memWrite a b).pc = s.pc := rfl
@[simp] theorem State.memWrite_index (s : State) (a : Addr) (b : Byte) : (s.memWrite a b).index = s.index := rfl
@[simp] theorem State.memWrite_sp (s : State) (a : Addr) (b : Byte) : (s.memWrite a b).sp = s.sp := rfl
@[simp] theorem State.memWrite_stack (s : State) (a : Addr) (b : Byte) : (s.memWrite a b).stack = s.stack := rfl
@[simp] theorem State.memWrite_dt (s : State) (a : Addr) (b : Byte) : (s.memWrite a b).dt = s.dt := rfl
@[simp] theorem State.memWrite_st (s : State) (a : Addr) (b : Byte) : (s.memWrite a b).st = s.st := rfl
@[simp] theorem State.memWrite_wait (s : State) (a : Addr) (b : Byte) : (s.memWrite a b).wait = s.wait := rfl
@[simp] theorem State.memWrite_keys (s : State) (a : Addr) (b : Byte) : (s.memWrite a b).keys = s.keys := rfl
@[simp] theorem State.memWrite_fault (s : State) (a : Addr) (b : Byte) : (s.memWrite a b).fault = s.fault := rfl
@[simp] theorem State.memWrite_fb (s : State) (a : Addr) (b : Byte) : (s.memWrite a b).fb = s.fb := rfl
@[simp] theorem State.memWrite_ram (s : State) (a : Addr) (b : Byte) : (s.memWrite a b).ram = s.ram.write a.toNat b := rfl
@[simp] theorem State.memWrite_inputs (s : State) (a : Addr) (b : Byte) : (s.memWrite a b).inputs = s.inputs := rfl
@[simp] theorem State.memWrite_ticks (s : State) (a : Addr) (b : Byte) : (s.memWrite a b).ticks = s.ticks := rfl
@[simp] theorem State.memWrite_out (s : State) (a : Addr) (b : Byte) : (s.memWrite a b).out = s.out := rfl

/-! ## begin -/

@[simp] theorem State.begin_v (s : State) : s.begin.v = s.v := rfl
@[simp] theorem State.begin_pc (s : State) : s.begin.pc = s.pc := rfl
@[simp] theorem State.begin_index (s : State) : s.begin.index = s.index := rfl
@[simp] theorem State.begin_sp (s : State) : s.begin.sp = s.sp := rfl
@[simp] theorem State.begin_stack (s : State) : s.begin.stack = s.stack := rfl
@[simp] theorem State.begin_dt (s : State) : s.begin.dt = timerStep s.dt := rfl
@[simp] theorem State.begin_st (s : State) : s.begin.st = timerStep s.st := rfl
@[simp] theorem State.begin_wait (s : State) : s.begin.wait = s.wait := rfl
@[simp] theorem State.begin_keys (s : State) : s.begin.keys = s.input.keypad := rfl
@[simp] theorem State.begin_fault (s : State) : s.begin.fault = s.fault := rfl
@[simp] theorem State.begin_fb (s : State) : s.begin.fb = s.fb := rfl
@[simp] theorem State.begin_ram (s : State) : s.begin.ram = s.ram := rfl
@[simp] theorem State.begin_inputs (s : State) : s.begin.inputs = s.inputs := rfl
@[simp] theorem State.begin_ticks (s : State) : s.begin.ticks = s.ticks := rfl
@[simp] theorem State.begin_out (s : State) : s.begin.out = s.out := rfl

/-! ## latchKeys -/

@[simp] theorem State.latchKeys_v (s : State) : s.latchKeys.v = s.v := rfl
@[simp] theorem State.latchKeys_pc (s : State) : s.latchKeys.pc = s.pc := rfl
@[simp] theorem State.latchKeys_index (s : State) : s.latchKeys.index = s.index := rfl
@[simp] theorem State.latchKeys_sp (s : State) : s.latchKeys.sp = s.sp := rfl
@[simp] theorem State.latchKeys_stack (s : State) : s.latchKeys.stack = s.stack := rfl
@[simp] theorem State.latchKeys_dt (s : State) : s.latchKeys.dt = s.dt := rfl
@[simp] theorem State.latchKeys_st (s : State) : s.latchKeys.st = s.st := rfl
@[simp] theorem State.latchKeys_wait (s : State) : s.latchKeys.wait = s.wait := rfl
@[simp] theorem State.latchKeys_keys (s : State) : s.latchKeys.keys = s.input.keypad := rfl
@[simp] theorem State.latchKeys_fault (s : State) : s.latchKeys.fault = s.fault := rfl
@[simp] theorem State.latchKeys_fb (s : State) : s.latchKeys.fb = s.fb := rfl
@[simp] theorem State.latchKeys_ram (s : State) : s.latchKeys.ram = s.ram := rfl
@[simp] theorem State.latchKeys_inputs (s : State) : s.latchKeys.inputs = s.inputs := rfl
@[simp] theorem State.latchKeys_ticks (s : State) : s.latchKeys.ticks = s.ticks := rfl
@[simp] theorem State.latchKeys_out (s : State) : s.latchKeys.out = s.out := rfl

/-! ## endTick -/

@[simp] theorem State.endTick_v (s : State) (r : TickResult) : (s.endTick r).v = s.v := rfl
@[simp] theorem State.endTick_pc (s : State) (r : TickResult) : (s.endTick r).pc = s.pc := rfl
@[simp] theorem State.endTick_index (s : State) (r : TickResult) : (s.endTick r).index = s.index := rfl
@[simp] theorem State.endTick_sp (s : State) (r : TickResult) : (s.endTick r).sp = s.sp := rfl
@[simp] theorem State.endTick_stack (s : State) (r : TickResult) : (s.endTick r).stack = s.stack := rfl
@[simp] theorem State.endTick_dt (s : State) (r : TickResult) : (s.endTick r).dt = s.dt := rfl
@[simp] theorem State.endTick_st (s : State) (r : TickResult) : (s.endTick r).st = s.st := rfl
@[simp] theorem State.endTick_wait (s : State) (r : TickResult) : (s.endTick r).wait = s.wait := rfl
@[simp] theorem State.endTick_keys (s : State) (r : TickResult) : (s.endTick r).keys = s.keys := rfl
@[simp] theorem State.endTick_fault (s : State) (r : TickResult) : (s.endTick r).fault = s.fault := rfl
@[simp] theorem State.endTick_fb (s : State) (r : TickResult) : (s.endTick r).fb = s.fb := rfl
@[simp] theorem State.endTick_ram (s : State) (r : TickResult) : (s.endTick r).ram = s.ram := rfl
@[simp] theorem State.endTick_inputs (s : State) (r : TickResult) : (s.endTick r).inputs = s.inputs.tail := rfl
@[simp] theorem State.endTick_ticks (s : State) (r : TickResult) : (s.endTick r).ticks = s.ticks + 1 := rfl
@[simp] theorem State.endTick_out (s : State) (r : TickResult) : (s.endTick r).out = some r := rfl

/-! ## commit -/

@[simp] theorem State.commit_v (s : State) (c : Bool) : (s.commit c).v = s.v := rfl
@[simp] theorem State.commit_pc (s : State) (c : Bool) : (s.commit c).pc = s.pc := rfl
@[simp] theorem State.commit_index (s : State) (c : Bool) : (s.commit c).index = s.index := rfl
@[simp] theorem State.commit_sp (s : State) (c : Bool) : (s.commit c).sp = s.sp := rfl
@[simp] theorem State.commit_stack (s : State) (c : Bool) : (s.commit c).stack = s.stack := rfl
@[simp] theorem State.commit_dt (s : State) (c : Bool) : (s.commit c).dt = s.dt := rfl
@[simp] theorem State.commit_st (s : State) (c : Bool) : (s.commit c).st = s.st := rfl
@[simp] theorem State.commit_wait (s : State) (c : Bool) : (s.commit c).wait = s.wait := rfl
@[simp] theorem State.commit_keys (s : State) (c : Bool) : (s.commit c).keys = s.keys := rfl
@[simp] theorem State.commit_fault (s : State) (c : Bool) : (s.commit c).fault = s.fault := rfl
@[simp] theorem State.commit_fb (s : State) (c : Bool) : (s.commit c).fb = s.fb := rfl
@[simp] theorem State.commit_ram (s : State) (c : Bool) : (s.commit c).ram = s.ram := rfl
@[simp] theorem State.commit_inputs (s : State) (c : Bool) : (s.commit c).inputs = s.inputs.tail := rfl
@[simp] theorem State.commit_ticks (s : State) (c : Bool) : (s.commit c).ticks = s.ticks + 1 := rfl
@[simp] theorem State.commit_out (s : State) (c : Bool) : (s.commit c).out = some (.ok (s.output c)) := rfl

/-! ## haltedTick -/

@[simp] theorem State.haltedTick_v (s : State) (r : FaultRecord) : (s.haltedTick r).v = s.v := rfl
@[simp] theorem State.haltedTick_pc (s : State) (r : FaultRecord) : (s.haltedTick r).pc = s.pc := rfl
@[simp] theorem State.haltedTick_index (s : State) (r : FaultRecord) : (s.haltedTick r).index = s.index := rfl
@[simp] theorem State.haltedTick_sp (s : State) (r : FaultRecord) : (s.haltedTick r).sp = s.sp := rfl
@[simp] theorem State.haltedTick_stack (s : State) (r : FaultRecord) : (s.haltedTick r).stack = s.stack := rfl
@[simp] theorem State.haltedTick_dt (s : State) (r : FaultRecord) : (s.haltedTick r).dt = s.dt := rfl
@[simp] theorem State.haltedTick_st (s : State) (r : FaultRecord) : (s.haltedTick r).st = s.st := rfl
@[simp] theorem State.haltedTick_wait (s : State) (r : FaultRecord) : (s.haltedTick r).wait = s.wait := rfl
@[simp] theorem State.haltedTick_keys (s : State) (r : FaultRecord) : (s.haltedTick r).keys = s.keys := rfl
@[simp] theorem State.haltedTick_fault (s : State) (r : FaultRecord) : (s.haltedTick r).fault = s.fault := rfl
@[simp] theorem State.haltedTick_fb (s : State) (r : FaultRecord) : (s.haltedTick r).fb = s.fb := rfl
@[simp] theorem State.haltedTick_ram (s : State) (r : FaultRecord) : (s.haltedTick r).ram = s.ram := rfl
@[simp] theorem State.haltedTick_inputs (s : State) (r : FaultRecord) : (s.haltedTick r).inputs = s.inputs.tail := rfl
@[simp] theorem State.haltedTick_ticks (s : State) (r : FaultRecord) : (s.haltedTick r).ticks = s.ticks + 1 := rfl
@[simp] theorem State.haltedTick_out (s : State) (r : FaultRecord) : (s.haltedTick r).out = some (.fault r) := rfl

/-! ## takeFault -/

@[simp] theorem State.takeFault_v (s : State) (k : FaultKind) (w : Opcode) : (s.takeFault k w).v = s.v := rfl
@[simp] theorem State.takeFault_pc (s : State) (k : FaultKind) (w : Opcode) : (s.takeFault k w).pc = s.pc := rfl
@[simp] theorem State.takeFault_index (s : State) (k : FaultKind) (w : Opcode) : (s.takeFault k w).index = s.index := rfl
@[simp] theorem State.takeFault_sp (s : State) (k : FaultKind) (w : Opcode) : (s.takeFault k w).sp = s.sp := rfl
@[simp] theorem State.takeFault_stack (s : State) (k : FaultKind) (w : Opcode) : (s.takeFault k w).stack = s.stack := rfl
@[simp] theorem State.takeFault_dt (s : State) (k : FaultKind) (w : Opcode) : (s.takeFault k w).dt = s.dt := rfl
@[simp] theorem State.takeFault_st (s : State) (k : FaultKind) (w : Opcode) : (s.takeFault k w).st = s.st := rfl
@[simp] theorem State.takeFault_wait (s : State) (k : FaultKind) (w : Opcode) : (s.takeFault k w).wait = s.wait := rfl
@[simp] theorem State.takeFault_keys (s : State) (k : FaultKind) (w : Opcode) : (s.takeFault k w).keys = s.keys := rfl
@[simp] theorem State.takeFault_fault (s : State) (k : FaultKind) (w : Opcode) : (s.takeFault k w).fault = some ⟨k, w, s.pc⟩ := rfl
@[simp] theorem State.takeFault_fb (s : State) (k : FaultKind) (w : Opcode) : (s.takeFault k w).fb = s.fb := rfl
@[simp] theorem State.takeFault_ram (s : State) (k : FaultKind) (w : Opcode) : (s.takeFault k w).ram = s.ram := rfl
@[simp] theorem State.takeFault_inputs (s : State) (k : FaultKind) (w : Opcode) : (s.takeFault k w).inputs = s.inputs.tail := rfl
@[simp] theorem State.takeFault_ticks (s : State) (k : FaultKind) (w : Opcode) : (s.takeFault k w).ticks = s.ticks + 1 := rfl
@[simp] theorem State.takeFault_out (s : State) (k : FaultKind) (w : Opcode) : (s.takeFault k w).out = some (.fault ⟨k, w, s.pc⟩) := rfl

/-! ## hostReset -/

@[simp] theorem State.hostReset_v (s : State) : s.hostReset.v = State.reset.v := rfl
@[simp] theorem State.hostReset_pc (s : State) : s.hostReset.pc = State.reset.pc := rfl
@[simp] theorem State.hostReset_index (s : State) : s.hostReset.index = State.reset.index := rfl
@[simp] theorem State.hostReset_sp (s : State) : s.hostReset.sp = State.reset.sp := rfl
@[simp] theorem State.hostReset_stack (s : State) : s.hostReset.stack = State.reset.stack := rfl
@[simp] theorem State.hostReset_dt (s : State) : s.hostReset.dt = State.reset.dt := rfl
@[simp] theorem State.hostReset_st (s : State) : s.hostReset.st = State.reset.st := rfl
@[simp] theorem State.hostReset_wait (s : State) : s.hostReset.wait = State.reset.wait := rfl
@[simp] theorem State.hostReset_keys (s : State) : s.hostReset.keys = State.reset.keys := rfl
@[simp] theorem State.hostReset_fault (s : State) : s.hostReset.fault = State.reset.fault := rfl
@[simp] theorem State.hostReset_fb (s : State) : s.hostReset.fb = State.reset.fb := rfl
@[simp] theorem State.hostReset_ram (s : State) : s.hostReset.ram = State.reset.ram := rfl
@[simp] theorem State.hostReset_inputs (s : State) : s.hostReset.inputs = s.inputs := rfl
@[simp] theorem State.hostReset_ticks (s : State) : s.hostReset.ticks = s.ticks := rfl
@[simp] theorem State.hostReset_out (s : State) : s.hostReset.out = State.reset.out := rfl

/-! ## Accessors through updates -/

@[simp] theorem State.reg_setReg (s : State) (x r : Reg) (b : Byte) :
    (s.setReg x b).reg r = if r = x then b else s.reg r := by
  simp only [State.reg, State.setReg, Vector.getElem_set, Fin.ext_iff, eq_comm]

@[simp] theorem State.reg_setWithFlag (s : State) (x r : Reg) (b : Byte) (f : Bool) :
    (s.setWithFlag x b f).reg r = if r = VF then flagByte f else if r = x then b else s.reg r := by
  simp only [State.setWithFlag, State.reg_setReg]

/-- The registers are read off `v` alone. -/
theorem State.reg_congr {s t : State} (h : t.v = s.v) (r : Reg) : t.reg r = s.reg r := by
  simp only [State.reg, h]

/-- RAM is read off `ram` alone. -/
theorem State.memRead_congr {s t : State} (h : t.ram = s.ram) (a : Addr) : t.memRead a = s.memRead a := by
  simp only [State.memRead, h]

/-- Pixels are read off `fb` alone. -/
theorem State.pixel_congr {s t : State} (h : t.fb = s.fb) (r : Fin Config.height) (c : Fin Config.width) :
    t.pixel r c = s.pixel r c := by
  simp only [State.pixel, h]

/-- The inputs of the coming tick are read off the model's own fields alone. -/
theorem State.input_congr {s t : State} (hi : t.inputs = s.inputs) (ht : t.ticks = s.ticks) : t.input = s.input := by
  simp only [State.input, hi, ht]

/-- The fetched opcode is read off `pc` and `ram` alone. -/
theorem State.fetch_congr {s t : State} (hp : t.pc = s.pc) (hr : t.ram = s.ram) : t.fetch = s.fetch := by
  simp only [State.fetch, State.memRead, hp, hr]

@[simp] theorem State.reg_begin (s : State) (r : Reg) : s.begin.reg r = s.reg r := rfl
@[simp] theorem State.memRead_begin (s : State) (a : Addr) : s.begin.memRead a = s.memRead a := rfl
@[simp] theorem State.reg_latchKeys (s : State) (r : Reg) : s.latchKeys.reg r = s.reg r := rfl
@[simp] theorem State.memRead_latchKeys (s : State) (a : Addr) : s.latchKeys.memRead a = s.memRead a := rfl
@[simp] theorem State.reg_commit (s : State) (c : Bool) (r : Reg) : (s.commit c).reg r = s.reg r := rfl
@[simp] theorem State.memRead_commit (s : State) (c : Bool) (a : Addr) : (s.commit c).memRead a = s.memRead a := rfl
@[simp] theorem State.reg_haltedTick (s : State) (e : FaultRecord) (r : Reg) : (s.haltedTick e).reg r = s.reg r := rfl
@[simp] theorem State.memRead_haltedTick (s : State) (r : FaultRecord) (a : Addr) : (s.haltedTick r).memRead a = s.memRead a := rfl
@[simp] theorem State.reg_takeFault (s : State) (k : FaultKind) (w : Opcode) (r : Reg) : (s.takeFault k w).reg r = s.reg r := rfl
@[simp] theorem State.memRead_takeFault (s : State) (k : FaultKind) (w : Opcode) (a : Addr) : (s.takeFault k w).memRead a = s.memRead a := rfl
@[simp] theorem State.memRead_setReg (s : State) (x : Reg) (b : Byte) (a : Addr) : (s.setReg x b).memRead a = s.memRead a := rfl
@[simp] theorem State.memRead_setWithFlag (s : State) (x : Reg) (b : Byte) (f : Bool) (a : Addr) :
    (s.setWithFlag x b f).memRead a = s.memRead a := rfl
@[simp] theorem State.reg_memWrite (s : State) (a : Addr) (b : Byte) (r : Reg) : (s.memWrite a b).reg r = s.reg r := rfl
@[simp] theorem State.input_begin (s : State) : s.begin.input = s.input := rfl

/-- One step of a timer as a number (R86). -/
@[simp] theorem timerStep_toNat (b : Byte) : (timerStep b).toNat = b.toNat - 1 := by
  by_cases h : b = 0
  · simp [timerStep, h]
  · have := b.isLt
    have h0 : b.toNat ≠ 0 := fun e => h (BitVec.eq_of_toNat_eq (by simpa using e))
    have h1 : (1 : Byte).toNat = 1 := rfl
    simp only [timerStep, h, ↓reduceIte, BitVec.toNat_sub, h1]
    omega

@[simp] theorem flagByte_true : flagByte true = 1 := rfl
@[simp] theorem flagByte_false : flagByte false = 0 := rfl

end Sys2Proof.Machine
end

