-- ==== Sys2Proof/Laws/Display.lean ====
section
/-! SUPPORT. What the operations of draw do (44_display.md R161 to R163), said once: the bits of a rotated row and of a row
mask, and a whole blit row by row. And the key test of the key skips (45_keypad_and_timers.md R171). -/

namespace Sys2Proof.Machine

/-! ## Bits of a row mask (R162) -/

theorem getLsbD_rotr64 (w : Row) {k i : Nat} (hk : k < 64) (hi : i < 64) :
    (rotr64 w k).getLsbD i = w.getLsbD ((i + k) % 64) := by
  unfold rotr64
  split
  · subst k; rw [Nat.add_zero, Nat.mod_eq_of_lt hi]
  · rw [BitVec.getLsbD_or, BitVec.getLsbD_ushiftRight, BitVec.getLsbD_shiftLeft]
    by_cases h : i + k < 64
    · rw [Nat.mod_eq_of_lt h, Nat.add_comm k i]
      simp [show i < 64 - k by omega]
    · rw [show (i + k) % 64 = i - (64 - k) by omega, BitVec.getLsbD_of_ge w (k + i) (by omega)]
      simp [hi, show ¬ i < 64 - k by omega]

/-- A bit of the row mask: the sprite byte's bits stand in the top eight places, turned right by `cx`. -/
theorem getLsbD_rowMask (b : Byte) {cx i : Nat} (hc : cx < 64) (hi : i < 64) :
    (rowMask b cx).getLsbD i = (decide (56 ≤ (i + cx) % 64) && b.getLsbD ((i + cx) % 64 - 56)) := by
  rw [rowMask, getLsbD_rotr64 _ hc hi, BitVec.getLsbD_shiftLeft]
  have : (i + cx) % 64 < 64 := Nat.mod_lt _ (by decide)
  simp only [this, decide_true, Bool.true_and, BitVec.getLsbD_setWidth]
  by_cases h : (i + cx) % 64 < 56
  · simp [h, show ¬ 56 ≤ (i + cx) % 64 by omega]
  · simp [h, show 56 ≤ (i + cx) % 64 by omega]
    omega

/-! ## A blit, row by row (R161, R163) -/

/-- Sprite rows closer than the display is high land on rows of their own. -/
theorem spriteRow_inj {cy b c : Nat} (hb : b < Config.height) (hc : c < Config.height)
    (h : (spriteRow cy b).val = (spriteRow cy c).val) : b = c := by
  simp only [spriteRow, Config.height] at *
  omega

/-- A row that no sprite row lands on stays as it is. -/
theorem blit_row_other (t : State) (cx cy : Nat) {r : Nat} (hr : r < Config.height) (n : Nat)
    (h : ∀ b, b < n → (spriteRow cy b).val ≠ r) : (blit t cx cy n).1[r] = t.fb[r] := by
  induction n with
  | zero => rfl
  | succ n ih =>
    rw [blit, blitRow]
    simp only [Vector.getElem_set]
    rw [if_neg (h n (Nat.lt_succ_self n))]
    exact ih fun b hb => h b (Nat.lt_succ_of_lt hb)

/-- The row that sprite row `b` lands on is XORed with that sprite row's mask, once. -/
theorem blit_row (t : State) (cx cy : Nat) {n b : Nat} (hn : n ≤ Config.height) (hb : b < n) :
    (blit t cx cy n).1[(spriteRow cy b).val] =
      t.fb[(spriteRow cy b).val] ^^^ rowMask (t.memRead (effAddr t.index b)) cx := by
  induction n with
  | zero => exact absurd hb (Nat.not_lt_zero b)
  | succ n ih =>
    rw [blit, blitRow]
    simp only [Vector.getElem_set]
    by_cases h : b = n
    · subst b
      rw [if_pos rfl, blit_row_other t cx cy (spriteRow cy n).isLt n]
      intro b hb' he
      have := spriteRow_inj (by omega) (by omega) he
      omega
    · rw [if_neg, ih (by omega) (by omega)]
      intro he
      exact h (spriteRow_inj (by omega) (by omega) he).symm

/-- The flag of a blit: some sprite row met a pixel that was on before the instruction. -/
theorem blit_flag (t : State) (cx cy : Nat) {n : Nat} (hn : n ≤ Config.height) :
    (blit t cx cy n).2 = true ↔
      ∃ b, b < n ∧ collides t.fb[(spriteRow cy b).val] (rowMask (t.memRead (effAddr t.index b)) cx) = true := by
  induction n with
  | zero => simp [blit]
  | succ n ih =>
    rw [blit, blitRow]
    simp only [Bool.or_eq_true]
    have hrow : (blit t cx cy n).1[(spriteRow cy n).val] = t.fb[(spriteRow cy n).val] := by
      refine blit_row_other t cx cy (spriteRow cy n).isLt n fun b hb he => ?_
      have := spriteRow_inj (by omega) (by omega) he
      omega
    rw [ih (by omega), hrow]
    constructor
    · rintro (⟨b, hb, h⟩ | h)
      · exact ⟨b, by omega, h⟩
      · exact ⟨n, by omega, h⟩
    · rintro ⟨b, hb, h⟩
      by_cases hbn : b = n
      · subst b; exact Or.inr h
      · exact Or.inl ⟨b, by omega, h⟩

/-- Two words collide exactly where some bit is set in both. -/
theorem collides_iff (row mask : Row) :
    collides row mask = true ↔ ∃ i, i < 64 ∧ row.getLsbD i = true ∧ mask.getLsbD i = true := by
  rw [collides, decide_eq_true_eq]
  constructor
  · intro h
    by_contra hn
    refine h (BitVec.eq_of_getLsbD_eq fun i hi => ?_)
    rw [BitVec.getLsbD_and, show (0 : Row).getLsbD i = false from BitVec.getLsbD_zero, Bool.and_eq_false_iff]
    by_contra hb
    simp only [not_or, Bool.not_eq_false] at hb
    exact hn ⟨i, hi, hb⟩
  · rintro ⟨i, _, h1, h2⟩ h0
    have := congrArg (BitVec.getLsbD · i) h0
    simp [h1, h2] at this

/-! ## The key test (R171) -/

theorem State.keyPressed_ok {s : State} {x : Reg} (h : (s.reg x).toNat ≤ 15) :
    s.keyPressed x = .ok (s.keys.getLsbD (s.reg x).toNat) := by
  rw [State.keyPressed, if_pos (by omega)]

theorem State.keyPressed_error {s : State} {x : Reg} (h : 15 < (s.reg x).toNat) :
    s.keyPressed x = .error .keyIndexOutOfRange := by
  rw [State.keyPressed, if_neg (by omega)]

end Sys2Proof.Machine
end

