-- ==== Sys2Proof/Laws/Encoding.lean ====
section
/-! SUPPORT. The laws of the table-driven decoder and encoder of 30_encoding.md: the rows of R64 do not overlap, the decoder
finds exactly the row an opcode selects, and operand bits and fields (R61, R62) undo each other. A proof about decode or
encode cites these and does not look at bits. -/

namespace Sys2Proof

/-! ## The parameters as numbers (R62) -/

@[simp] theorem Config.xPos_eq : Config.xPos = 8 := rfl
@[simp] theorem Config.yPos_eq : Config.yPos = 4 := rfl
@[simp] theorem Config.nPos_eq : Config.nPos = 0 := rfl
@[simp] theorem Config.kkPos_eq : Config.kkPos = 0 := rfl
@[simp] theorem Config.nnnPos_eq : Config.nnnPos = 0 := rfl

/-! ## The opcode table (R64) -/

theorem Tag.mem_all (t : Tag) : t ∈ Tag.all := by cases t <;> decide

/-- Two different rows disagree on a bit that both look at. -/
theorem Config.opcodeRow_disjoint : Tag.all.Pairwise fun t u =>
    (Config.opcodeRow t).mask.toNat &&& (Config.opcodeRow u).mask.toNat &&&
      ((Config.opcodeRow t).pattern.toNat ^^^ (Config.opcodeRow u).pattern.toNat) ≠ 0 := by decide +kernel

/-- Every pattern lies inside its mask. -/
theorem Config.pattern_and_mask (t : Tag) :
    (Config.opcodeRow t).pattern &&& (Config.opcodeRow t).mask = (Config.opcodeRow t).pattern := by cases t <;> decide

theorem OpcodeRow.selects_iff (r : OpcodeRow) (w : Opcode) : r.selects w = true ↔ w &&& r.mask = r.pattern := by
  simp [OpcodeRow.selects]

/-- An opcode selects at most one row (95_test_vectors.md E14: "no `w` matches two rows"). -/
theorem Tag.eq_of_selects {w : Opcode} {t u : Tag} (ht : (Config.opcodeRow t).selects w = true)
    (hu : (Config.opcodeRow u).selects w = true) : t = u := by
  by_contra h
  have : Std.Symm fun t u : Tag => (Config.opcodeRow t).mask.toNat &&& (Config.opcodeRow u).mask.toNat &&&
      ((Config.opcodeRow t).pattern.toNat ^^^ (Config.opcodeRow u).pattern.toNat) ≠ 0 :=
    ⟨fun t u h => by rwa [Nat.land_comm (Config.opcodeRow u).mask.toNat, Nat.xor_comm]⟩
  refine Config.opcodeRow_disjoint.forall t.mem_all u.mem_all h ?_
  rw [← BitVec.toNat_and, ← BitVec.toNat_xor, ← BitVec.toNat_and, ← BitVec.toNat_zero (w := 16), BitVec.toNat_inj]
  rw [← (OpcodeRow.selects_iff _ _).mp ht, ← (OpcodeRow.selects_iff _ _).mp hu]
  ext i hi
  simp only [BitVec.getElem_and, BitVec.getElem_xor, BitVec.getElem_zero]
  cases w[i] <;> cases (Config.opcodeRow t).mask[i] <;> cases (Config.opcodeRow u).mask[i] <;> rfl

/-- The decoder finds a tag exactly when the opcode selects its row. -/
theorem decodeTag_eq_some {w : Opcode} {t : Tag} : decodeTag w = some t ↔ (Config.opcodeRow t).selects w = true := by
  constructor
  · exact fun h => List.find?_some (p := fun t => (Config.opcodeRow t).selects w) h
  · intro h
    cases hd : decodeTag w with
    | none => exact absurd h (List.find?_eq_none.mp hd t t.mem_all)
    | some u => exact congrArg some (Tag.eq_of_selects (List.find?_some (p := fun t => (Config.opcodeRow t).selects w) hd) h)

/-- The decoder finds no tag exactly when the opcode selects no row (R65). -/
theorem decodeTag_eq_none {w : Opcode} : decodeTag w = none ↔ ∀ t, (Config.opcodeRow t).selects w = false := by
  simp [decodeTag, List.find?_eq_none, Tag.mem_all]

/-- What decode answers on an opcode that selects a row. -/
theorem decode_of_selects {w : Opcode} {t : Tag} (h : (Config.opcodeRow t).selects w = true) : decode w = .ok (t.instr w) := by
  rw [decode, decodeTag_eq_some.mpr h]

/-- Where decode answers an instruction: on an opcode of its row, with the operands of its fields. -/
theorem decode_ok {w : Opcode} {i : Instr} (h : decode w = .ok i) :
    ∃ t, (Config.opcodeRow t).selects w = true ∧ i = t.instr w := by
  cases hd : decodeTag w with
  | none => simp [decode, hd] at h
  | some t =>
    rw [decode, hd] at h
    exact ⟨t, decodeTag_eq_some.mp hd, by simpa using h.symm⟩

@[simp] theorem Tag.tag_instr (t : Tag) (w : Opcode) : (t.instr w).tag = t := by cases t <;> rfl

/-! ## The fields in nibbles (R60, R62) -/

theorem fieldX_nibbles (w : Opcode) : fieldX w = (nibbles w).2.1.toFin := rfl
theorem fieldY_nibbles (w : Opcode) : fieldY w = (nibbles w).2.2.1.toFin := rfl
theorem fieldN_nibbles (w : Opcode) : fieldN w = (nibbles w).2.2.2.toFin := rfl
theorem fieldKK_nibbles (w : Opcode) :
    (fieldKK w).toNat = (nibbles w).2.2.1.toNat * 16 + (nibbles w).2.2.2.toNat := by
  simp only [fieldKK, nibbles, BitVec.extractLsb'_toNat, Nat.shiftRight_eq_div_pow, Config.kkPos_eq]
  omega
theorem fieldNNN_nibbles (w : Opcode) :
    (fieldNNN w).toNat = (nibbles w).2.1.toNat * 256 + (nibbles w).2.2.1.toNat * 16 + (nibbles w).2.2.2.toNat := by
  simp only [fieldNNN, nibbles, BitVec.extractLsb'_toNat, Nat.shiftRight_eq_div_pow, Config.nnnPos_eq]
  omega

/-! ## Fields of operand bits under a pattern (R61, R62) -/

theorem toFin_nibble (r : Fin 16) : (nibble r).toFin = r := rfl

theorem nibble_toFin (b : Nibble) : nibble b.toFin = b := rfl

theorem fieldNNN_bits {p : Opcode} (h : p.extractLsb' Config.nnnPos 12 = 0) (nnn : Addr) : fieldNNN (p ||| bitsNNN nnn) = nnn := by
  have hb : (bitsNNN nnn).extractLsb' Config.nnnPos 12 = nnn := by
    ext i hi; interval_cases i <;> simp [bitsNNN, place, BitVec.getElem_extractLsb']
  rw [fieldNNN, BitVec.extractLsb'_or, h, hb, BitVec.ofNat_eq_ofNat, BitVec.zero_or]

theorem fieldX_or {p q : Opcode} (h : p.extractLsb' Config.xPos 4 = 0) : fieldX (p ||| q) = fieldX q := by
  rw [fieldX, BitVec.extractLsb'_or, h, BitVec.ofNat_eq_ofNat, BitVec.zero_or, fieldX]

theorem fieldY_or {p q : Opcode} (h : p.extractLsb' Config.yPos 4 = 0) : fieldY (p ||| q) = fieldY q := by
  rw [fieldY, BitVec.extractLsb'_or, h, BitVec.ofNat_eq_ofNat, BitVec.zero_or, fieldY]

theorem fieldN_or {p q : Opcode} (h : p.extractLsb' Config.nPos 4 = 0) : fieldN (p ||| q) = fieldN q := by
  rw [fieldN, BitVec.extractLsb'_or, h, BitVec.ofNat_eq_ofNat, BitVec.zero_or, fieldN]

theorem fieldKK_or {p q : Opcode} (h : p.extractLsb' Config.kkPos 8 = 0) : fieldKK (p ||| q) = fieldKK q := by
  rw [fieldKK, BitVec.extractLsb'_or, h, BitVec.ofNat_eq_ofNat, BitVec.zero_or, fieldKK]

@[simp] theorem fieldX_bitsX (x : Reg) : fieldX (bitsX x) = x := by
  refine (congrArg BitVec.toFin (?_ : _ = nibble x)).trans (toFin_nibble x)
  ext i hi; interval_cases i <;> simp [bitsX, place, BitVec.getElem_extractLsb']
@[simp] theorem fieldX_bitsXKK (x : Reg) (kk : Byte) : fieldX (bitsXKK x kk) = x := by
  refine (congrArg BitVec.toFin (?_ : _ = nibble x)).trans (toFin_nibble x)
  ext i hi; interval_cases i <;> simp [bitsXKK, bitsX, place, BitVec.getElem_extractLsb']
@[simp] theorem fieldKK_bitsXKK (x : Reg) (kk : Byte) : fieldKK (bitsXKK x kk) = kk := by
  ext i hi; interval_cases i <;> simp [fieldKK, bitsXKK, bitsX, place, BitVec.getElem_extractLsb']
@[simp] theorem fieldX_bitsXY (x y : Reg) : fieldX (bitsXY x y) = x := by
  refine (congrArg BitVec.toFin (?_ : _ = nibble x)).trans (toFin_nibble x)
  ext i hi; interval_cases i <;> simp [bitsXY, bitsX, place, BitVec.getElem_extractLsb']
@[simp] theorem fieldY_bitsXY (x y : Reg) : fieldY (bitsXY x y) = y := by
  refine (congrArg BitVec.toFin (?_ : _ = nibble y)).trans (toFin_nibble y)
  ext i hi; interval_cases i <;> simp [bitsXY, bitsX, place, BitVec.getElem_extractLsb']
@[simp] theorem fieldX_bitsXYN (x y : Reg) (n : Fin 16) : fieldX (bitsXYN x y n) = x := by
  refine (congrArg BitVec.toFin (?_ : _ = nibble x)).trans (toFin_nibble x)
  ext i hi; interval_cases i <;> simp [bitsXYN, bitsXY, bitsX, place, BitVec.getElem_extractLsb']
@[simp] theorem fieldY_bitsXYN (x y : Reg) (n : Fin 16) : fieldY (bitsXYN x y n) = y := by
  refine (congrArg BitVec.toFin (?_ : _ = nibble y)).trans (toFin_nibble y)
  ext i hi; interval_cases i <;> simp [bitsXYN, bitsXY, bitsX, place, BitVec.getElem_extractLsb']
@[simp] theorem fieldN_bitsXYN (x y : Reg) (n : Fin 16) : fieldN (bitsXYN x y n) = n := by
  refine (congrArg BitVec.toFin (?_ : _ = nibble n)).trans (toFin_nibble n)
  ext i hi; interval_cases i <;> simp [bitsXYN, bitsXY, bitsX, place, BitVec.getElem_extractLsb']

/-! ## What the masks of R64 keep of operand bits: nothing -/

theorem bitsNNN_mask (nnn : Addr) : bitsNNN nnn &&& 0xF000#16 = 0 := by
  ext i hi; interval_cases i <;> simp [bitsNNN, place]
theorem bitsX_mask (x : Reg) : bitsX x &&& 0xF0FF#16 = 0 := by
  ext i hi; interval_cases i <;> simp [bitsX, place]
theorem bitsXKK_mask (x : Reg) (kk : Byte) : bitsXKK x kk &&& 0xF000#16 = 0 := by
  ext i hi; interval_cases i <;> simp [bitsXKK, bitsX, place]
theorem bitsXY_mask (x y : Reg) : bitsXY x y &&& 0xF00F#16 = 0 := by
  ext i hi; interval_cases i <;> simp [bitsXY, bitsX, place]
theorem bitsXYN_mask (x y : Reg) (n : Fin 16) : bitsXYN x y n &&& 0xF000#16 = 0 := by
  ext i hi; interval_cases i <;> simp [bitsXYN, bitsXY, bitsX, place]

/-- A row's pattern with operand bits outside its mask selects the row. -/
theorem selects_or {t : Tag} {b : Opcode} (hb : b &&& (Config.opcodeRow t).mask = 0) :
    (Config.opcodeRow t).selects ((Config.opcodeRow t).pattern ||| b) = true := by
  rw [OpcodeRow.selects_iff, BitVec.and_comm, BitVec.and_or_distrib_left, BitVec.and_comm, Config.pattern_and_mask,
    BitVec.and_comm, hb]
  exact BitVec.or_zero

/-! ## The fields of an opcode, put back (R62) -/

theorem bitsNNN_field (w : Opcode) : bitsNNN (fieldNNN w) = w &&& 0x0FFF#16 := by
  rw [bitsNNN, fieldNNN]
  ext i hi; interval_cases i <;> simp [place, BitVec.getElem_extractLsb']
theorem bitsX_field (w : Opcode) : bitsX (fieldX w) = w &&& 0x0F00#16 := by
  rw [bitsX, fieldX, nibble_toFin]
  ext i hi; interval_cases i <;> simp [place, BitVec.getElem_extractLsb']
theorem bitsXKK_field (w : Opcode) : bitsXKK (fieldX w) (fieldKK w) = w &&& 0x0FFF#16 := by
  rw [bitsXKK, bitsX_field, fieldKK]
  ext i hi; interval_cases i <;> simp [place, BitVec.getElem_extractLsb']
theorem bitsXY_field (w : Opcode) : bitsXY (fieldX w) (fieldY w) = w &&& 0x0FF0#16 := by
  rw [bitsXY, bitsX_field, fieldY, nibble_toFin]
  ext i hi; interval_cases i <;> simp [place, BitVec.getElem_extractLsb']
theorem bitsXYN_field (w : Opcode) : bitsXYN (fieldX w) (fieldY w) (fieldN w) = w &&& 0x0FFF#16 := by
  rw [bitsXYN, bitsXY_field, fieldN, nibble_toFin]
  ext i hi; interval_cases i <;> simp [place, BitVec.getElem_extractLsb']

/-- A row's pattern and the bits its mask leaves out are the whole opcode. -/
theorem pattern_or_rest {r : OpcodeRow} {w rest : Opcode} (h : r.selects w = true) (hr : rest = ~~~r.mask) :
    r.pattern ||| (w &&& rest) = w := by
  rw [← (OpcodeRow.selects_iff _ _).mp h, hr]
  ext i hi
  simp only [BitVec.getElem_or, BitVec.getElem_and, BitVec.getElem_not]
  cases w[i] <;> cases r.mask[i] <;> rfl

/-! ## The bytes of a word -/

/-- The two bytes of a word, put together again, are the word (20_memory.md R47). -/
theorem opcodeOf_bytes (w : Opcode) : opcodeOf (hiByte w) (loByte w) = w := by
  ext i hi; interval_cases i <;> simp [opcodeOf, hiByte, loByte, BitVec.getElem_extractLsb']

end Sys2Proof
end

