-- ==== Sys2Proof/Laws/Memory.lean ====
section
/-! SUPPORT. RAM: a read after a write, and the canonical form, which reset has and every memory operation keeps. -/

namespace Sys2Proof.Machine

/-! ## Read after write -/

theorem Memory.read_erase_same (m : Memory) (a : Nat) : (m.erase a).read a = Memory.unlisted a := by
  unfold Memory.erase
  induction m with
  | nil => rfl
  | cons c m ih => by_cases h : c.1 = a <;> simp [h, Memory.read, ih]

theorem Memory.read_erase_ne (m : Memory) {a k : Nat} (h : k ≠ a) : (m.erase a).read k = m.read k := by
  unfold Memory.erase
  induction m with
  | nil => rfl
  | cons c m ih =>
    by_cases hc : c.1 = a
    · simp [hc, Memory.read, ih, Ne.symm h]
    · simp [hc, Memory.read, ih]

theorem Memory.read_insert_ne (m : Memory) {a k : Nat} (b : Byte) (h : k ≠ a) : (m.insert a b).read k = m.read k := by
  induction m with
  | nil => simp [Memory.insert, Memory.read, Ne.symm h]
  | cons c m ih => by_cases hc : c.1 < a <;> simp [Memory.insert, Memory.read, hc, ih, Ne.symm h]

theorem Memory.read_insert_same (m : Memory) (a : Nat) (b : Byte) : (m.insert a b).read a = b := by
  induction m with
  | nil => simp [Memory.insert, Memory.read]
  | cons c m ih =>
    by_cases hc : c.1 < a
    · simp [Memory.insert, Memory.read, hc, ih, Nat.ne_of_lt hc]
    · simp [Memory.insert, Memory.read, hc]

/-- What a cell reads as after a write. -/
theorem Memory.read_write (m : Memory) (a k : Nat) (b : Byte) :
    (m.write a b).read k = if k = a then b else m.read k := by
  unfold Memory.write
  split <;> rename_i hb <;> by_cases hk : k = a
  · simp [hk, Memory.read_erase_same, hb]
  · simp [hk, Memory.read_erase_ne m hk]
  · simp [hk, Memory.read_insert_same]
  · simp [hk, Memory.read_insert_ne _ b hk, Memory.read_erase_ne m hk]

/-! ## The canonical form -/

/-- What `Memory.wf` decides. -/
theorem Memory.wf_iff (m : Memory) : m.wf = true ↔
    m.Pairwise (fun c d => c.1 < d.1) ∧ ∀ c ∈ m, c.1 < Config.ramSize ∧ c.2 ≠ Memory.unlisted c.1 := by
  simp [Memory.wf]

theorem Memory.mem_insert {m : Memory} {a : Nat} {b : Byte} {c : Host.Cell} (h : c ∈ m.insert a b) :
    c = (a, b) ∨ c ∈ m := by
  induction m with
  | nil => simpa [Memory.insert] using h
  | cons d m ih =>
    by_cases hd : d.1 < a <;> simp only [Memory.insert, hd, ↓reduceIte, List.mem_cons] at h ⊢
    · rcases h with rfl | h
      · exact .inr (.inl rfl)
      · exact (ih h).imp_right .inr
    · exact h

theorem Memory.pairwise_insert {m : Memory} {a : Nat} (b : Byte) (h : m.Pairwise fun c d => c.1 < d.1)
    (ha : ∀ c ∈ m, c.1 ≠ a) : (m.insert a b).Pairwise fun c d => c.1 < d.1 := by
  induction m with
  | nil => simp [Memory.insert]
  | cons c m ih =>
    obtain ⟨hc, hm⟩ := List.pairwise_cons.mp h
    have hca := ha c List.mem_cons_self
    by_cases hlt : c.1 < a
    · simp only [Memory.insert, hlt, ↓reduceIte, List.pairwise_cons]
      refine ⟨fun d hd => ?_, ih hm fun d hd => ha d (List.mem_cons_of_mem _ hd)⟩
      rcases Memory.mem_insert hd with rfl | hd
      · exact hlt
      · exact hc d hd
    · simp only [Memory.insert, hlt, ↓reduceIte, List.pairwise_cons, List.mem_cons, forall_eq_or_imp]
      refine ⟨⟨by omega, fun d hd => ?_⟩, hc, hm⟩
      have := hc d hd
      omega

/-- A write inside RAM keeps the canonical form. -/
theorem Memory.wf_write {m : Memory} {a : Nat} (b : Byte) (h : m.wf = true) (ha : a < Config.ramSize) :
    (m.write a b).wf = true := by
  rw [Memory.wf_iff] at h ⊢
  have hmem : ∀ c ∈ m.erase a, c ∈ m ∧ c.1 ≠ a := fun c hc => by simpa [Memory.erase] using hc
  have hpair : (m.erase a).Pairwise fun c d => c.1 < d.1 := h.1.filter _
  unfold Memory.write
  split
  · exact ⟨hpair, fun c hc => h.2 c (hmem c hc).1⟩
  · next hb =>
    refine ⟨Memory.pairwise_insert b hpair fun c hc => (hmem c hc).2, fun c hc => ?_⟩
    rcases Memory.mem_insert hc with rfl | hc
    · exact ⟨ha, hb⟩
    · exact h.2 c (hmem c hc).1

/-- Every store of a byte at an address keeps the canonical form. -/
theorem State.memWrite_wf {s : State} (a : Addr) (b : Byte) (h : s.ram.wf = true) : (s.memWrite a b).ram.wf = true :=
  Memory.wf_write b h a.isLt

/-- The reset RAM has the canonical form. -/
theorem State.reset_wf : State.reset.ram.wf = true := by decide

/-- What an address reads as after a store to an address. -/
@[simp] theorem State.memRead_memWrite (s : State) (a k : Addr) (b : Byte) :
    (s.memWrite a b).memRead k = if k = a then b else s.memRead k := by
  simp only [State.memRead, State.memWrite, Memory.read_write, BitVec.toNat_inj]

end Sys2Proof.Machine
end

