-- ==== Sys2Proof/Laws/Ops.lean ====
section
/-! SUPPORT. One law per shared operation: the tick of a handler (runHandler), the PC action, the stack, the runs of bytes
and registers, load. Each says once what the operation can do; a proof cites it and does not unfold the operation. -/

namespace Sys2Proof.Machine

/-! ## The PC action (R89) -/

theorem State.applyPc_ok {s : State} {act : PcAction} (h : pcTarget s.pc act < Config.ramSize) :
    s.applyPc act = .ok { s with pc := BitVec.ofNat 12 (pcTarget s.pc act) } := by
  simp only [State.applyPc, h, ↓reduceIte]

theorem State.applyPc_error {s : State} {act : PcAction} (h : ¬ pcTarget s.pc act < Config.ramSize) :
    s.applyPc act = .error .pcOutOfRange := by
  simp only [State.applyPc, h, ↓reduceIte]

/-! ## The tick of a handler (R82, R90) -/

/-- The handler raised a fault. -/
theorem runHandler_raise {w : Opcode} {s : State} {handler : State → Except FaultKind Handled} {k : FaultKind}
    (h : handler s.begin = .error k) : runHandler w s handler = s.takeFault k w := by
  simp only [runHandler, h]

/-- The PC action does not fit. -/
theorem runHandler_past {w : Opcode} {s : State} {handler : State → Except FaultKind Handled} {r : Handled}
    (h : handler s.begin = .ok r) (hp : ¬ pcTarget r.state.pc r.act < Config.ramSize) :
    runHandler w s handler = s.takeFault .pcOutOfRange w := by
  simp only [runHandler, h, State.applyPc_error hp]

/-- The tick commits. -/
theorem runHandler_commit {w : Opcode} {s : State} {handler : State → Except FaultKind Handled} {r : Handled}
    (h : handler s.begin = .ok r) (hp : pcTarget r.state.pc r.act < Config.ramSize) :
    runHandler w s handler =
      ({ r.state with pc := BitVec.ofNat 12 (pcTarget r.state.pc r.act) } : State).commit r.changed := by
  simp only [runHandler, h, State.applyPc_ok hp]

/-- Everything the tick of a handler can do: take one fault from the state at entry, or commit what it answered. -/
theorem runHandler_cases (w : Opcode) (s : State) (handler : State → Except FaultKind Handled) :
    (∃ k, runHandler w s handler = s.takeFault k w) ∨
    (∃ r, handler s.begin = .ok r ∧ pcTarget r.state.pc r.act < Config.ramSize ∧
      runHandler w s handler =
        ({ r.state with pc := BitVec.ofNat 12 (pcTarget r.state.pc r.act) } : State).commit r.changed) := by
  cases h : handler s.begin with
  | error k => exact .inl ⟨k, runHandler_raise h⟩
  | ok r =>
    by_cases hp : pcTarget r.state.pc r.act < Config.ramSize
    · exact .inr ⟨r, rfl, hp, runHandler_commit h hp⟩
    · exact .inl ⟨_, runHandler_past h hp⟩

/-! ## The call stack (R101, R103) -/

theorem State.push_ok {s : State} {a : Addr} (h : s.sp.val < Config.stackDepth) :
    s.push a = .ok { s with stack := s.stack.set s.sp.val a h, sp := ⟨s.sp.val + 1, Nat.succ_lt_succ h⟩ } := by
  simp only [State.push, h, ↓reduceDIte]

theorem State.push_full {s : State} {a : Addr} (h : ¬ s.sp.val < Config.stackDepth) :
    s.push a = .error .stackOverflow := by
  simp only [State.push, h, ↓reduceDIte]

theorem State.pop_empty {s : State} (h : s.sp.val = 0) : s.pop = .error .stackUnderflow := by
  simp only [State.pop, h, ↓reduceDIte]

theorem State.pop_ok {s : State} {k : Nat} (h : s.sp.val = k + 1) (hk : k < Config.stackDepth) :
    s.pop = .ok (s.stack[k], { s with sp := ⟨k, Nat.lt_succ_of_lt hk⟩ }) := by
  have h0 : s.sp.val ≠ 0 := by omega
  unfold State.pop
  rw [dif_neg h0]
  simp only [h, Nat.add_sub_cancel]

/-! ## Effective addresses (R46, R140) -/

theorem inBounds_iff (i : Index) (m : Nat) : inBounds i m = true ↔ i.toNat + m ≤ 0xFFF := by
  simp only [inBounds, decide_eq_true_eq, Nat.lt_succ_iff]

theorem effAddr_toNat {i : Index} {k : Nat} (h : i.toNat + k < Config.ramSize) : (effAddr i k).toNat = i.toNat + k := by
  simp only [effAddr, BitVec.toNat_ofNat]
  exact Nat.mod_eq_of_lt h

/-! ## Runs of bytes and registers (R140, R145, R146) -/

/-- A run of stores changes RAM and nothing else. -/
theorem State.writeBytesFrom_frame (s : State) (k : Nat) (bytes : List Byte) :
    s.writeBytesFrom k bytes = { s with ram := (s.writeBytesFrom k bytes).ram } := by
  induction bytes generalizing s k with
  | nil => rfl
  | cons b bytes ih => exact (ih (s.memWrite (effAddr s.index k) b) (k + 1)).trans rfl

/-- A run of stores keeps the canonical form of RAM. -/
theorem State.writeBytesFrom_wf {s : State} (k : Nat) (bytes : List Byte) (h : s.ram.wf = true) :
    (s.writeBytesFrom k bytes).ram.wf = true := by
  induction bytes generalizing s k with
  | nil => exact h
  | cons b bytes ih => exact ih (k + 1) (State.memWrite_wf _ b h)

/-- What an address reads as after a run of stores that stays in RAM. -/
theorem State.memRead_writeBytesFrom (s : State) (k : Nat) (bytes : List Byte) (a : Addr)
    (h : s.index.toNat + k + bytes.length ≤ Config.ramSize) :
    (s.writeBytesFrom k bytes).memRead a =
      if s.index.toNat + k ≤ a.toNat ∧ a.toNat < s.index.toNat + k + bytes.length
      then bytes.getD (a.toNat - (s.index.toNat + k)) 0 else s.memRead a := by
  induction bytes generalizing s k with
  | nil =>
    have : ¬ (s.index.toNat + k ≤ a.toNat ∧ a.toNat < s.index.toNat + k + 0) := by omega
    simp only [State.writeBytesFrom, List.length_nil, this, ↓reduceIte]
  | cons b bytes ih =>
    simp only [List.length_cons] at h ⊢
    have hk : (effAddr s.index k).toNat = s.index.toNat + k := effAddr_toNat (by omega)
    have hc : a = effAddr s.index k ↔ a.toNat = s.index.toNat + k := by rw [← BitVec.toNat_inj, hk]
    simp only [State.writeBytesFrom]
    rw [ih _ _ (by simp only [State.memWrite_index]; omega)]
    simp only [State.memWrite_index, State.memRead_memWrite, hc]
    by_cases h0 : a.toNat = s.index.toNat + k
    · rw [if_neg (by omega), if_pos h0, if_pos (by omega), h0, Nat.sub_self, List.getD_cons_zero]
    · rw [if_neg h0]
      by_cases h1 : s.index.toNat + (k + 1) ≤ a.toNat ∧ a.toNat < s.index.toNat + (k + 1) + bytes.length
      · have h3 : a.toNat - (s.index.toNat + k) = a.toNat - (s.index.toNat + (k + 1)) + 1 := by omega
        rw [if_pos h1, if_pos (by omega), h3, List.getD_cons_succ]
      · rw [if_neg h1, if_neg (by omega)]

/-- A run of register writes changes the registers and nothing else. -/
theorem State.setRegsFrom_frame (s : State) (k : Nat) (bytes : List Byte) :
    s.setRegsFrom k bytes = { s with v := (s.setRegsFrom k bytes).v } := by
  induction bytes generalizing s k with
  | nil => rfl
  | cons b bytes ih =>
    simp only [State.setRegsFrom]
    split
    · exact (ih (s.setReg _ b) (k + 1)).trans rfl
    · exact ih s (k + 1)

/-- What a register reads as after a run of register writes. -/
theorem State.reg_setRegsFrom (s : State) (k : Nat) (bytes : List Byte) (r : Reg) :
    (s.setRegsFrom k bytes).reg r =
      if k ≤ r.val ∧ r.val < k + bytes.length then bytes.getD (r.val - k) 0 else s.reg r := by
  induction bytes generalizing s k with
  | nil =>
    have : ¬ (k ≤ r.val ∧ r.val < k + 0) := by omega
    simp only [State.setRegsFrom, List.length_nil, this, ↓reduceIte]
  | cons b bytes ih =>
    simp only [State.setRegsFrom, List.length_cons]
    rw [ih]
    have hr := r.isLt
    by_cases h1 : k + 1 ≤ r.val ∧ r.val < k + 1 + bytes.length
    · have h2 : k ≤ r.val ∧ r.val < k + (bytes.length + 1) := by omega
      have h3 : r.val - k = r.val - (k + 1) + 1 := by omega
      simp only [h1, h2, and_self, ↓reduceIte, h3, List.getD_cons_succ]
    · simp only [h1, ↓reduceIte]
      by_cases h0 : r.val = k
      · have hk : k < 16 := h0 ▸ hr
        have h2 : k ≤ r.val ∧ r.val < k + (bytes.length + 1) := by omega
        simp only [hk, ↓reduceDIte, State.reg_setReg, Fin.ext_iff, h0, ↓reduceIte, le_refl, true_and, Nat.sub_self,
          List.getD_cons_zero]
        simp
      · have h2 : ¬ (k ≤ r.val ∧ r.val < k + (bytes.length + 1)) := by omega
        simp only [h2, ↓reduceIte]
        split
        · simp only [State.reg_setReg, Fin.ext_iff, h0, ↓reduceIte]
        · rfl

theorem State.length_readBytes (s : State) (n : Nat) : (s.readBytes n).length = n := by
  simp only [State.readBytes, List.length_map, List.length_range]

theorem State.getD_readBytes (s : State) {n k : Nat} (h : k < n) :
    (s.readBytes n).getD k 0 = s.memRead (effAddr s.index k) := by
  simp [State.readBytes, List.getD_eq_getElem?_getD, h]

theorem State.length_regsUpTo (s : State) (x : Reg) : (s.regsUpTo x).length = x.val + 1 := by
  have := x.isLt
  simp only [State.regsUpTo, List.length_take, Vector.length_toList]
  omega

theorem State.getD_regsUpTo (s : State) (x k : Reg) (h : k ≤ x) : (s.regsUpTo x).getD k.val 0 = s.reg k := by
  have hk : k.val < x.val + 1 := Nat.lt_succ_of_le h
  have := k.isLt
  simp [State.regsUpTo, State.reg, List.getD_eq_getElem?_getD, hk]

/-! ## load (R81) -/

/-- load changes RAM and nothing else. -/
theorem State.loadFrom_frame (s : State) (j : Nat) (bytes : List Byte) :
    s.loadFrom j bytes = { s with ram := (s.loadFrom j bytes).ram } := by
  induction bytes generalizing s j with
  | nil => rfl
  | cons b bytes ih =>
    simp only [State.loadFrom]
    split
    · exact (ih (s.memWrite _ b) (j + 1)).trans rfl
    · exact ih s (j + 1)

/-- load keeps the canonical form of RAM. -/
theorem State.load_wf {s : State} (bytes : List Byte) (h : s.ram.wf = true) : (s.load bytes).ram.wf = true := by
  suffices ∀ (j : Nat) (s : State), s.ram.wf = true → (s.loadFrom j bytes).ram.wf = true from this 0 s h
  induction bytes with
  | nil => exact fun _ _ h => h
  | cons b bytes ih =>
    intro j s h
    simp only [State.loadFrom]
    split
    · exact ih (j + 1) _ (State.memWrite_wf _ b h)
    · exact ih (j + 1) s h

/-! ## The least key (R85) -/

theorem lowestKeyFrom_spec (mask : KeyMask) (k fuel : Nat) (h : ∃ j, k ≤ j ∧ j < k + fuel ∧ mask.getLsbD j = true) :
    k ≤ lowestKeyFrom mask k fuel ∧ lowestKeyFrom mask k fuel < k + fuel ∧
      mask.getLsbD (lowestKeyFrom mask k fuel) = true ∧
      ∀ j, k ≤ j → j < lowestKeyFrom mask k fuel → mask.getLsbD j = false := by
  induction fuel generalizing k with
  | zero => obtain ⟨j, h1, h2, _⟩ := h; omega
  | succ fuel ih =>
    simp only [lowestKeyFrom]
    split
    · next hk => exact ⟨le_refl k, by omega, hk, fun j h1 h2 => by omega⟩
    · next hk =>
      obtain ⟨j, h1, h2, h3⟩ := h
      have hj : j ≠ k := fun e => hk (e ▸ h3)
      obtain ⟨a1, a2, a3, a4⟩ := ih (k + 1) ⟨j, by omega, by omega, h3⟩
      refine ⟨by omega, by omega, a3, fun i i1 i2 => ?_⟩
      by_cases hi : i = k
      · exact hi ▸ Bool.eq_false_iff.mpr hk
      · exact a4 i (by omega) i2

/-- The key captured from a nonzero mask is pressed, and no lesser key is (R85). -/
theorem lowestKey_spec (mask : KeyMask) (h : mask ≠ 0) :
    lowestKey mask < 16 ∧ mask.getLsbD (lowestKey mask) = true ∧ ∀ j, j < lowestKey mask → mask.getLsbD j = false := by
  have hex : ∃ j, 0 ≤ j ∧ j < 0 + 16 ∧ mask.getLsbD j = true := by
    by_contra hno
    refine h (BitVec.eq_of_getLsbD_eq fun j hj => ?_)
    cases hb : mask.getLsbD j with
    | false => simp
    | true => exact absurd ⟨j, Nat.zero_le _, by omega, hb⟩ hno
  obtain ⟨_, a2, a3, a4⟩ := lowestKeyFrom_spec mask 0 16 hex
  exact ⟨(Nat.zero_add 16) ▸ a2, a3, fun j hj => a4 j (Nat.zero_le _) hj⟩

end Sys2Proof.Machine
end

