-- ==== Sys2Proof/Laws/PerInstr.lean ====
section
/-! SUPPORT. The two per-instruction families of LAWS.json, about an instruction as syntax: RowWord, its word selects its row
of 30_encoding.md R64; OperandFit, its operands fit their fields (R62). -/

namespace Sys2Proof.Laws.RowWord

/-- The instruction's word selects its row of R64. -/
def Statement (i : Instr) : Prop := i.row.selects (encode i) = true

theorem clearScreen : Statement .clearScreen := rfl
theorem ret : Statement .ret := rfl
theorem jump (nnn : Addr) : Statement (.jump nnn) := selects_or (bitsNNN_mask ..)
theorem call (nnn : Addr) : Statement (.call nnn) := selects_or (bitsNNN_mask ..)
theorem skipEqImm (x : Reg) (kk : Byte) : Statement (.skipEqImm x kk) := selects_or (bitsXKK_mask ..)
theorem skipNeqImm (x : Reg) (kk : Byte) : Statement (.skipNeqImm x kk) := selects_or (bitsXKK_mask ..)
theorem skipEqReg (x y : Reg) : Statement (.skipEqReg x y) := selects_or (bitsXY_mask ..)
theorem loadImm (x : Reg) (kk : Byte) : Statement (.loadImm x kk) := selects_or (bitsXKK_mask ..)
theorem addImm (x : Reg) (kk : Byte) : Statement (.addImm x kk) := selects_or (bitsXKK_mask ..)
theorem loadReg (x y : Reg) : Statement (.loadReg x y) := selects_or (bitsXY_mask ..)
theorem orReg (x y : Reg) : Statement (.orReg x y) := selects_or (bitsXY_mask ..)
theorem andReg (x y : Reg) : Statement (.andReg x y) := selects_or (bitsXY_mask ..)
theorem xorReg (x y : Reg) : Statement (.xorReg x y) := selects_or (bitsXY_mask ..)
theorem addReg (x y : Reg) : Statement (.addReg x y) := selects_or (bitsXY_mask ..)
theorem sub (x y : Reg) : Statement (.sub x y) := selects_or (bitsXY_mask ..)
theorem shr (x y : Reg) : Statement (.shr x y) := selects_or (bitsXY_mask ..)
theorem subn (x y : Reg) : Statement (.subn x y) := selects_or (bitsXY_mask ..)
theorem shl (x y : Reg) : Statement (.shl x y) := selects_or (bitsXY_mask ..)
theorem skipNeqReg (x y : Reg) : Statement (.skipNeqReg x y) := selects_or (bitsXY_mask ..)
theorem loadI (nnn : Addr) : Statement (.loadI nnn) := selects_or (bitsNNN_mask ..)
theorem jumpV0 (nnn : Addr) : Statement (.jumpV0 nnn) := selects_or (bitsNNN_mask ..)
theorem rand (x : Reg) (kk : Byte) : Statement (.rand x kk) := selects_or (bitsXKK_mask ..)
theorem draw (x y : Reg) (n : Fin 16) : Statement (.draw x y n) := selects_or (bitsXYN_mask ..)
theorem skipKeyPressed (x : Reg) : Statement (.skipKeyPressed x) := selects_or (bitsX_mask ..)
theorem skipKeyNotPressed (x : Reg) : Statement (.skipKeyNotPressed x) := selects_or (bitsX_mask ..)
theorem readDelay (x : Reg) : Statement (.readDelay x) := selects_or (bitsX_mask ..)
theorem waitKey (x : Reg) : Statement (.waitKey x) := selects_or (bitsX_mask ..)
theorem setDelay (x : Reg) : Statement (.setDelay x) := selects_or (bitsX_mask ..)
theorem setSound (x : Reg) : Statement (.setSound x) := selects_or (bitsX_mask ..)
theorem addI (x : Reg) : Statement (.addI x) := selects_or (bitsX_mask ..)
theorem fontAddr (x : Reg) : Statement (.fontAddr x) := selects_or (bitsX_mask ..)
theorem bcd (x : Reg) : Statement (.bcd x) := selects_or (bitsX_mask ..)
theorem storeRegs (x : Reg) : Statement (.storeRegs x) := selects_or (bitsX_mask ..)
theorem loadRegs (x : Reg) : Statement (.loadRegs x) := selects_or (bitsX_mask ..)

end Sys2Proof.Laws.RowWord

namespace Sys2Proof.Laws.OperandFit

/-- The instruction's operands fit their fields. -/
def Statement (i : Instr) : Prop := i.wellFormed = true

theorem clearScreen : Statement .clearScreen := rfl
theorem ret : Statement .ret := rfl
theorem jump (nnn : Addr) : Statement (.jump nnn) := by simp [Statement, Instr.wellFormed, Instr.operands, Operands.fit, nnn.isLt]
theorem call (nnn : Addr) : Statement (.call nnn) := by simp [Statement, Instr.wellFormed, Instr.operands, Operands.fit, nnn.isLt]
theorem skipEqImm (x : Reg) (kk : Byte) : Statement (.skipEqImm x kk) := by simp [Statement, Instr.wellFormed, Instr.operands, Operands.fit, x.isLt, kk.isLt]
theorem skipNeqImm (x : Reg) (kk : Byte) : Statement (.skipNeqImm x kk) := by simp [Statement, Instr.wellFormed, Instr.operands, Operands.fit, x.isLt, kk.isLt]
theorem skipEqReg (x y : Reg) : Statement (.skipEqReg x y) := by simp [Statement, Instr.wellFormed, Instr.operands, Operands.fit, x.isLt, y.isLt]
theorem loadImm (x : Reg) (kk : Byte) : Statement (.loadImm x kk) := by simp [Statement, Instr.wellFormed, Instr.operands, Operands.fit, x.isLt, kk.isLt]
theorem addImm (x : Reg) (kk : Byte) : Statement (.addImm x kk) := by simp [Statement, Instr.wellFormed, Instr.operands, Operands.fit, x.isLt, kk.isLt]
theorem loadReg (x y : Reg) : Statement (.loadReg x y) := by simp [Statement, Instr.wellFormed, Instr.operands, Operands.fit, x.isLt, y.isLt]
theorem orReg (x y : Reg) : Statement (.orReg x y) := by simp [Statement, Instr.wellFormed, Instr.operands, Operands.fit, x.isLt, y.isLt]
theorem andReg (x y : Reg) : Statement (.andReg x y) := by simp [Statement, Instr.wellFormed, Instr.operands, Operands.fit, x.isLt, y.isLt]
theorem xorReg (x y : Reg) : Statement (.xorReg x y) := by simp [Statement, Instr.wellFormed, Instr.operands, Operands.fit, x.isLt, y.isLt]
theorem addReg (x y : Reg) : Statement (.addReg x y) := by simp [Statement, Instr.wellFormed, Instr.operands, Operands.fit, x.isLt, y.isLt]
theorem sub (x y : Reg) : Statement (.sub x y) := by simp [Statement, Instr.wellFormed, Instr.operands, Operands.fit, x.isLt, y.isLt]
theorem shr (x y : Reg) : Statement (.shr x y) := by simp [Statement, Instr.wellFormed, Instr.operands, Operands.fit, x.isLt, y.isLt]
theorem subn (x y : Reg) : Statement (.subn x y) := by simp [Statement, Instr.wellFormed, Instr.operands, Operands.fit, x.isLt, y.isLt]
theorem shl (x y : Reg) : Statement (.shl x y) := by simp [Statement, Instr.wellFormed, Instr.operands, Operands.fit, x.isLt, y.isLt]
theorem skipNeqReg (x y : Reg) : Statement (.skipNeqReg x y) := by simp [Statement, Instr.wellFormed, Instr.operands, Operands.fit, x.isLt, y.isLt]
theorem loadI (nnn : Addr) : Statement (.loadI nnn) := by simp [Statement, Instr.wellFormed, Instr.operands, Operands.fit, nnn.isLt]
theorem jumpV0 (nnn : Addr) : Statement (.jumpV0 nnn) := by simp [Statement, Instr.wellFormed, Instr.operands, Operands.fit, nnn.isLt]
theorem rand (x : Reg) (kk : Byte) : Statement (.rand x kk) := by simp [Statement, Instr.wellFormed, Instr.operands, Operands.fit, x.isLt, kk.isLt]
theorem draw (x y : Reg) (n : Fin 16) : Statement (.draw x y n) := by simp [Statement, Instr.wellFormed, Instr.operands, Operands.fit, x.isLt, y.isLt, n.isLt]
theorem skipKeyPressed (x : Reg) : Statement (.skipKeyPressed x) := by simp [Statement, Instr.wellFormed, Instr.operands, Operands.fit, x.isLt]
theorem skipKeyNotPressed (x : Reg) : Statement (.skipKeyNotPressed x) := by simp [Statement, Instr.wellFormed, Instr.operands, Operands.fit, x.isLt]
theorem readDelay (x : Reg) : Statement (.readDelay x) := by simp [Statement, Instr.wellFormed, Instr.operands, Operands.fit, x.isLt]
theorem waitKey (x : Reg) : Statement (.waitKey x) := by simp [Statement, Instr.wellFormed, Instr.operands, Operands.fit, x.isLt]
theorem setDelay (x : Reg) : Statement (.setDelay x) := by simp [Statement, Instr.wellFormed, Instr.operands, Operands.fit, x.isLt]
theorem setSound (x : Reg) : Statement (.setSound x) := by simp [Statement, Instr.wellFormed, Instr.operands, Operands.fit, x.isLt]
theorem addI (x : Reg) : Statement (.addI x) := by simp [Statement, Instr.wellFormed, Instr.operands, Operands.fit, x.isLt]
theorem fontAddr (x : Reg) : Statement (.fontAddr x) := by simp [Statement, Instr.wellFormed, Instr.operands, Operands.fit, x.isLt]
theorem bcd (x : Reg) : Statement (.bcd x) := by simp [Statement, Instr.wellFormed, Instr.operands, Operands.fit, x.isLt]
theorem storeRegs (x : Reg) : Statement (.storeRegs x) := by simp [Statement, Instr.wellFormed, Instr.operands, Operands.fit, x.isLt]
theorem loadRegs (x : Reg) : Statement (.loadRegs x) := by simp [Statement, Instr.wellFormed, Instr.operands, Operands.fit, x.isLt]

end Sys2Proof.Laws.OperandFit
end

