-- ==== Sys2Proof/Laws/Step.lean ====
section
/-! SUPPORT. Everything a step can do, said once: halted, waiting, nothing to fetch, an instruction, or a no-op. -/

namespace Sys2Proof.Machine

theorem step_halted {s : State} {r : FaultRecord} (h : s.fault = some r) : step s = .next (s.haltedTick r) := by
  simp only [step, h]

theorem step_waiting {s : State} {r : Reg} (hf : s.fault = none) (hw : s.wait = .waitingForKey r) :
    step s = .next (s.waitingTick r) := by
  simp only [step, hf, hw]

theorem step_noFetch {s : State} (hf : s.fault = none) (hw : s.wait = .running) (h : s.fetch = none) :
    step s = .next (s.takeFault .fetchOutOfBounds 0) := by
  simp only [step, hf, hw, h]

theorem step_instr {s : State} {w : Opcode} {i : Instr} (hf : s.fault = none) (hw : s.wait = .running)
    (h : s.fetch = some w) (hd : decode w = .ok i) : step s = exec i s := by
  simp only [step, hf, hw, h, hd]

theorem step_unrecognised {s : State} {w : Opcode} {e : DecodeError} (hf : s.fault = none) (hw : s.wait = .running)
    (h : s.fetch = some w) (hd : decode w = .error e) : step s = .next (s.unrecognisedTick w) := by
  simp only [step, hf, hw, h, hd]

/-- The five things a tick can be (R82, R195). -/
theorem step_cases {s t : State} (h : step s = .next t) :
    (∃ r, s.fault = some r ∧ t = s.haltedTick r) ∨
    (∃ r, s.fault = none ∧ s.wait = .waitingForKey r ∧ t = s.waitingTick r) ∨
    (s.fault = none ∧ s.wait = .running ∧ s.fetch = none ∧ t = s.takeFault .fetchOutOfBounds 0) ∨
    (∃ w i, s.fault = none ∧ s.wait = .running ∧ s.fetch = some w ∧ decode w = .ok i ∧ exec i s = .next t) ∨
    (∃ w e, s.fault = none ∧ s.wait = .running ∧ s.fetch = some w ∧ decode w = .error e ∧ t = s.unrecognisedTick w) := by
  cases hf : s.fault with
  | some r => rw [step_halted hf] at h; exact .inl ⟨r, rfl, by cases h; rfl⟩
  | none =>
    cases hw : s.wait with
    | waitingForKey r => rw [step_waiting hf hw] at h; exact .inr (.inl ⟨r, rfl, rfl, by cases h; rfl⟩)
    | running =>
      cases hx : s.fetch with
      | none => rw [step_noFetch hf hw hx] at h; exact .inr (.inr (.inl ⟨rfl, rfl, rfl, by cases h; rfl⟩))
      | some w =>
        cases hd : decode w with
        | ok i => rw [step_instr hf hw hx hd] at h; exact .inr (.inr (.inr (.inl ⟨w, i, rfl, rfl, rfl, hd, h⟩)))
        | error e =>
          rw [step_unrecognised hf hw hx hd] at h
          exact .inr (.inr (.inr (.inr ⟨w, e, rfl, rfl, rfl, hd, by cases h; rfl⟩)))

end Sys2Proof.Machine
end

