-- ==== Sys2Proof/Tests/Slice0.lean ====
section
/-! SUPPORT. Tests: the checks of WellFormed, one word of every row of the opcode table, single ticks whose expected
results are the vectors of 95_test_vectors.md (their ids stand in the names), and for every statement with hypotheses a
state that meets them, clause by clause, at the edges of its range. -/

namespace Sys2Proof.Tests

open Sys2Proof.Machine

/-! ## Helpers -/

/-- Reset, the opcode placed at `pc`, and one tick's inputs ready: no key, `rnd = 0`. -/
def startAt (pc : Addr) (w : Nat) : State :=
  { State.withFetchWord { State.reset with pc := pc } 16 w with inputs := [⟨0, 0⟩] }

/-- The start state of the vectors: the opcode under test at `0x200`. -/
def start (w : Nat) : State := startAt 0x200 w

/-- The next tick's inputs. -/
def feed (keypad : KeyMask) (rnd : Byte) (s : State) : State := { s with inputs := [⟨keypad, rnd⟩] }

/-- Waiting for a key into `V[r]`, one tick's keypad ready. -/
def waiting (r : Reg) (keypad : KeyMask) : State := feed keypad 0 { startAt 0x202 0 with wait := .waitingForKey r }

/-- A halted engine: reset, then `return` with an empty stack (vector X1). -/
def halted : State := { start 0x00EE with fault := some ⟨.stackUnderflow, 0x00EE, 0x200⟩ }

/-- The outcome is a next state with a property. -/
def answers (o : Host.Outcome State Fault Refusal) (p : State → Bool) : Bool :=
  match o with
  | .next t => p t
  | .fault _ => false
  | .refused _ => false

/-- The tick committed: `Ok`, with these `changed` and `beep`. -/
def okWith (changed beep : Bool) (t : State) : Bool :=
  t.out == some (.ok ⟨t.fb, changed, beep⟩) && t.fault == none

/-- The tick faulted, with this record in the latch and in its result. -/
def faultWith (kind : FaultKind) (opcode : Opcode) (pc : Addr) (t : State) : Bool :=
  t.fault == some ⟨kind, opcode, pc⟩ && t.out == some (.fault ⟨kind, opcode, pc⟩)

/-- An instruction that is not the next one. -/
theorem nextInstr_ne {s : State} {i j : Instr} (h : s.nextInstr = some i) (hij : i ≠ j) : s.nextInstr ≠ some j := by
  rw [h]; simpa using hij

/-! ## WellFormed refuses each operand that does not fit its field (R62) -/

theorem test_fit_refuses_x : Operands.fit { x := 16 } = false := by decide
theorem test_fit_refuses_y : Operands.fit { y := 16 } = false := by decide
theorem test_fit_refuses_n : Operands.fit { n := 16 } = false := by decide
theorem test_fit_refuses_kk : Operands.fit { kk := 256 } = false := by decide
theorem test_fit_refuses_nnn : Operands.fit { nnn := 4096 } = false := by decide
theorem test_fit_accepts_widest : Operands.fit { x := 15, y := 15, n := 15, kk := 255, nnn := 4095 } = true := by decide

/-! ## Decode: one word of every row of R64, written out bit by bit from its encoding -/

theorem test_decode_control :
    decode 0b0000000011100000#16 = .ok .clearScreen ∧ decode 0b0000000011101110#16 = .ok .ret ∧
    decode 0b0001001000110100#16 = .ok (.jump 0x234) ∧ decode 0b0010001100000001#16 = .ok (.call 0x301) ∧
    decode 0b1011111100000001#16 = .ok (.jumpV0 0xF01) := by decide
theorem test_decode_skips :
    decode 0b0011101001000010#16 = .ok (.skipEqImm 10 0x42) ∧ decode 0b0100101001000010#16 = .ok (.skipNeqImm 10 0x42) ∧
    decode 0b0101000100100000#16 = .ok (.skipEqReg 1 2) ∧ decode 0b1001000100100000#16 = .ok (.skipNeqReg 1 2) := by decide
theorem test_decode_loads :
    decode 0b0110111110101011#16 = .ok (.loadImm 15 0xAB) ∧ decode 0b0111101000000001#16 = .ok (.addImm 10 1) ∧
    decode 0b1000001111110000#16 = .ok (.loadReg 3 15) ∧ decode 0b1100000100001111#16 = .ok (.rand 1 0x0F) := by decide
theorem test_decode_alu :
    decode 0b1000000100100001#16 = .ok (.orReg 1 2) ∧ decode 0b1000000100100010#16 = .ok (.andReg 1 2) ∧
    decode 0b1000000100100011#16 = .ok (.xorReg 1 2) ∧ decode 0b1000000100100100#16 = .ok (.addReg 1 2) ∧
    decode 0b1000000100100101#16 = .ok (.sub 1 2) ∧ decode 0b1000000100100110#16 = .ok (.shr 1 2) ∧
    decode 0b1000101010110111#16 = .ok (.subn 10 11) ∧ decode 0b1000000100101110#16 = .ok (.shl 1 2) := by decide
theorem test_decode_index_and_memory :
    decode 0b1010001011110000#16 = .ok (.loadI 0x2F0) ∧ decode 0b1111000100011110#16 = .ok (.addI 1) ∧
    decode 0b1111000100101001#16 = .ok (.fontAddr 1) ∧ decode 0b1111000100110011#16 = .ok (.bcd 1) ∧
    decode 0b1111111101010101#16 = .ok (.storeRegs 15) ∧ decode 0b1111000101100101#16 = .ok (.loadRegs 1) := by decide
theorem test_decode_draw_keys_timers :
    decode 0b1101000100101111#16 = .ok (.draw 1 2 15) ∧ decode 0b1110000110011110#16 = .ok (.skipKeyPressed 1) ∧
    decode 0b1110000110100001#16 = .ok (.skipKeyNotPressed 1) ∧ decode 0b1111000100000111#16 = .ok (.readDelay 1) ∧
    decode 0b1111111100001010#16 = .ok (.waitKey 15) ∧ decode 0b1111000100010101#16 = .ok (.setDelay 1) ∧
    decode 0b1111000100011000#16 = .ok (.setSound 1) := by decide
theorem test_decode_unrecognised_E8_to_E13 :
    [0x0000#16, 0x00E1#16, 0x0FFF#16, 0x5121#16, 0x8128#16, 0x812F#16, 0x912E#16, 0xE19F#16, 0xE100#16, 0xF100#16, 0xF108#16,
      0xF1FF#16].all (fun w => decide (decode w = .error (.unrecognised w))) = true := by decide
theorem test_decodeBytes_needs_two : decodeBytes [0x12#8] = .error .truncated := by decide
theorem test_decodeTableWord : decodeTableWord 16 0xD12F = some (.draw 1 2 15) := by decide

/-! ## One tick an instruction -/

theorem test_unrecognised_E15 : answers (step ({ start 0x5121 with dt := 3 }.setReg VF 7))
    (fun t => okWith false false t && t.pc == 0x202 && t.dt == 2 && t.reg VF == 7) = true := by decide
theorem test_jump_T3 : answers (step (start 0x1FFF)) (fun t => okWith false false t && t.pc == 0xFFF) = true := by decide
theorem test_jump_T28 : answers (step (startAt 0xFFE 0x1200)) (fun t => okWith false false t && t.pc == 0x200) = true := by
  decide
theorem test_call_T6 : answers (step { start 0x2300 with sp := 15 })
    (fun t => t.stack[15] == 0x202 && t.sp == 16 && t.pc == 0x300) = true := by decide
theorem test_call_T7 : answers (step { start 0x2300 with sp := 16 })
    (fun t => faultWith .stackOverflow 0x2300 0x200 t && t.sp == 16 && t.pc == 0x200) = true := by decide
theorem test_ret_T10 : answers (step { startAt 0x300 0x00EE with sp := 1, stack := (Vector.replicate 16 0).set 0 0x202 })
    (fun t => t.sp == 0 && t.pc == 0x202 && t.stack[0] == 0x202) = true := by decide
theorem test_ret_T12 : answers (step { start 0x00EE with sp := 16, stack := (Vector.replicate 16 0).set 15 0xABC })
    (fun t => t.sp == 15 && t.pc == 0xABC) = true := by decide
theorem test_jumpV0_T14 : answers (step ((start 0xBF00).setReg 0 0xFF))
    (fun t => okWith false false t && t.pc == 0xFFF) = true := by decide
theorem test_jumpV0_T16 : answers (step ((start 0xB2F0).setReg 2 0x55)) (fun t => t.pc == 0x2F0) = true := by decide
theorem test_skipEqImm_T17 : (answers (step ((start 0x3A42).setReg 10 0x42)) (fun t => t.pc == 0x204) &&
    answers (step ((start 0x3A42).setReg 10 0x41)) (fun t => t.pc == 0x202)) = true := by decide
theorem test_skipEqImm_T24 : answers (step (startAt 0xFFC 0x3000)) (faultWith .pcOutOfRange 0x3000 0xFFC) = true := by decide
theorem test_skipNeqImm_T18 : (answers (step ((start 0x4A42).setReg 10 0x41)) (fun t => t.pc == 0x204) &&
    answers (step ((start 0x4A42).setReg 10 0x42)) (fun t => t.pc == 0x202)) = true := by decide
theorem test_skipEqReg_T19 : (answers (step (((start 0x5120).setReg 1 7).setReg 2 7)) (fun t => t.pc == 0x204) &&
    answers (step (((start 0x5120).setReg 1 7).setReg 2 8)) (fun t => t.pc == 0x202)) = true := by decide
theorem test_skipNeqReg_T21 : (answers (step (((start 0x9120).setReg 1 7).setReg 2 8)) (fun t => t.pc == 0x204) &&
    answers (step (((start 0x9120).setReg 1 7).setReg 2 7)) (fun t => t.pc == 0x202)) = true := by decide
theorem test_loadImm_A27 : answers (step (start 0x6FAB)) (fun t => t.reg VF == 0xAB && t.pc == 0x202) = true := by decide
theorem test_loadImm_T27 : answers (step (startAt 0xFFE 0x6105))
    (fun t => faultWith .pcOutOfRange 0x6105 0xFFE t && t.reg 1 == 0) = true := by decide
theorem test_addImm_A28 : answers (step ((start 0x7A01).setReg 10 0xFF)) (fun t => t.reg 10 == 0 && t.reg VF == 0) = true := by
  decide
theorem test_addImm_A29 : answers (step ((start 0x7F02).setReg VF 0xFF)) (fun t => t.reg VF == 1) = true := by decide
theorem test_loadReg_A30 : answers (step ((start 0x8120).setReg 2 9)) (fun t => t.reg 1 == 9 && t.reg 2 == 9) = true := by decide
theorem test_orReg_A23 : answers (step ((((start 0x8121).setReg 1 0x0F).setReg 2 0xF0).setReg VF 1))
    (fun t => t.reg 1 == 0xFF && t.reg VF == 1) = true := by decide
theorem test_andReg_A24 : answers (step ((((start 0x8122).setReg 1 0x3C).setReg 2 0x0F).setReg VF 1))
    (fun t => t.reg 1 == 0x0C && t.reg VF == 1) = true := by decide
theorem test_xorReg_A25 : answers (step ((((start 0x8123).setReg 1 0xFF).setReg 2 0x0F).setReg VF 1))
    (fun t => t.reg 1 == 0xF0 && t.reg VF == 1) = true := by decide
theorem test_addReg_A4 : answers (step (((start 0x8124).setReg 1 0xFF).setReg 2 1))
    (fun t => t.reg 1 == 0 && t.reg VF == 1) = true := by decide
theorem test_addReg_A6 : answers (step (((start 0x81F4).setReg 1 0xFE).setReg VF 3))
    (fun t => t.reg 1 == 1 && t.reg VF == 1) = true := by decide
theorem test_sub_A8 : answers (step ((((start 0x8125).setReg 1 0x10).setReg 2 0x20).setReg VF 1))
    (fun t => t.reg 1 == 0xF0 && t.reg VF == 0) = true := by decide
theorem test_sub_A11 : answers (step (((start 0x8F15).setReg VF 5).setReg 1 9)) (fun t => t.reg VF == 0) = true := by decide
theorem test_subn_A13 : answers (step (((start 0x8127).setReg 1 0x10).setReg 2 0x20))
    (fun t => t.reg 1 == 0x10 && t.reg VF == 1) = true := by decide
theorem test_subn_A15b : answers (step (((start 0x8F17).setReg VF 9).setReg 1 5)) (fun t => t.reg VF == 0) = true := by decide
theorem test_shr_A17 : answers (step ((((start 0x8126).setReg 1 0xFE).setReg 2 0xAA).setReg VF 1))
    (fun t => t.reg 1 == 0x7F && t.reg 2 == 0xAA && t.reg VF == 0) = true := by decide
theorem test_shr_A19 : answers (step ((start 0x8F06).setReg VF 3)) (fun t => t.reg VF == 1) = true := by decide
theorem test_shl_A20 : answers (step (((start 0x812E).setReg 1 0x81).setReg 2 0x55))
    (fun t => t.reg 1 == 2 && t.reg 2 == 0x55 && t.reg VF == 1) = true := by decide
theorem test_shl_A22b : answers (step ((start 0x8F0E).setReg VF 0x7F)) (fun t => t.reg VF == 0) = true := by decide
theorem test_rand_A32 : answers (step (feed 0 0xA7 (start 0xC10F))) (fun t => t.reg 1 == 7) = true := by decide
theorem test_rand_A35 : answers (step (feed 0 0xA7 (start 0xC1F0))) (fun t => t.reg 1 == 0xA0) = true := by decide
theorem test_loadI_M1 : answers (step { start 0xA2F0 with index := 0xFFFF }) (fun t => t.index == 0x02F0) = true := by decide
theorem test_addI_M2 : answers (step ({ start 0xF11E with index := 0x0FFE }.setReg 1 5))
    (fun t => okWith false false t && t.index == 0x1003 && t.reg VF == 0) = true := by decide
theorem test_addI_M3 : answers (step ({ start 0xF11E with index := 0xFFFF }.setReg 1 2)) (fun t => t.index == 1) = true := by
  decide
theorem test_fontAddr_M6 : answers (step ((start 0xF129).setReg 1 0xFF)) (fun t => t.index == 0x04FB) = true := by decide
theorem test_bcd_M8 : answers (step ({ start 0xF133 with index := 0x300 }.setReg 1 156))
    (fun t => t.ram.read 0x300 == 1 && t.ram.read 0x301 == 5 && t.ram.read 0x302 == 6 && t.index == 0x300) = true := by decide
theorem test_bcd_M12 : answers (step ({ start 0xF133 with index := 0xFFE }.setReg 1 7))
    (fun t => faultWith .memoryOutOfBounds 0xF133 0x200 t && t.ram.read 0xFFE == 0 && t.ram.read 0xFFF == 0) = true := by decide
theorem test_storeRegs_M14 : answers
    (step (((({ start 0xF255 with index := 0x400 }.setReg 0 0x11).setReg 1 0x22).setReg 2 0x33).setReg 3 0x44))
    (fun t => t.ram.read 0x400 == 0x11 && t.ram.read 0x402 == 0x33 && t.ram.read 0x403 == 0 && t.index == 0x400) = true := by
  decide
theorem test_storeRegs_M17 : answers (step ({ start 0xFF55 with index := 0xFF1 }.setReg 0 0x10))
    (fun t => faultWith .memoryOutOfBounds 0xFF55 0x200 t && t.ram.read 0xFF1 == 0) = true := by decide
theorem test_loadRegs_M19 : answers (step (start 0xF165))
    (fun t => t.reg 0 == 0xF0 && t.reg 1 == 0x90 && t.reg 2 == 0 && t.index == 0) = true := by decide
theorem test_loadRegs_M21 : answers (step { start 0xF165 with index := 0xFFF })
    (fun t => faultWith .memoryOutOfBounds 0xF165 0x200 t && t.reg 0 == 0) = true := by decide
theorem test_clearScreen_G1 : answers
    (step ({ start 0x00E0 with fb := ((Vector.replicate 32 0).set 3 0xFFFF).set 31 1 }.setReg VF 1))
    (fun t => okWith true false t && t.fb == Vector.replicate 32 0 && t.reg VF == 1 && t.pc == 0x202) = true := by decide
theorem test_draw_G4 : answers
    (step (({ start 0xD011 with index := 0x300 }.memWrite 0x300 0xFF).setReg 0 60))
    (fun t => okWith true false t && t.fb[0] == 0xF00000000000000F && t.reg VF == 0) = true := by decide
theorem test_draw_G8 : answers
    (step (({ start 0xD012 with index := 0x300, fb := (Vector.replicate 32 0).set 0 0x8000000000000000 }.memWrite 0x300
      0x80).memWrite 0x301 0x80))
    (fun t => t.fb[0] == 0 && t.fb[1] == 0x8000000000000000 && t.reg VF == 1) = true := by decide
theorem test_skipKeyPressed_K1_K2 : (answers (step (feed 0x0010 0 ((start 0xE19E).setReg 1 4))) (fun t => t.pc == 0x204) &&
    answers (step (feed 0xFFEF 0 ((start 0xE19E).setReg 1 4))) (fun t => t.pc == 0x202)) = true := by decide
theorem test_skipKeyPressed_K6 : answers (step ((start 0xE19E).setReg 1 16))
    (faultWith .keyIndexOutOfRange 0xE19E 0x200) = true := by decide
theorem test_skipKeyNotPressed_K3_K4 : (answers (step ((start 0xE1A1).setReg 1 4)) (fun t => t.pc == 0x204) &&
    answers (step (feed 0x0010 0 ((start 0xE1A1).setReg 1 4))) (fun t => t.pc == 0x202)) = true := by decide
theorem test_skipKeyNotPressed_K7 : answers (step (feed 0x0010 0 ((start 0xE1A1).setReg 1 0x14)))
    (faultWith .keyIndexOutOfRange 0xE1A1 0x200) = true := by decide
theorem test_readDelay_K9 : answers (step { start 0xF107 with dt := 5 }) (fun t => t.dt == 4 && t.reg 1 == 4) = true := by decide
theorem test_setDelay_K11 : answers (step ({ start 0xF115 with dt := 7 }.setReg 1 200)) (fun t => t.dt == 200) = true := by decide
theorem test_setSound_K12 : answers (step ((start 0xF118).setReg 1 1))
    (fun t => okWith false true t && t.st == 1 && answers (step t) (fun u => okWith false false u && u.st == 0)) = true := by decide
theorem test_setSound_K13 : answers (step { start 0xF118 with st := 9 }) (fun t => okWith false false t && t.st == 0) = true := by
  decide
theorem test_waitKey_W1 : answers (step (feed 0xFFFF 0 ((start 0xF30A).setReg 3 0xAA)))
    (fun t => t.wait == .waitingForKey 3 && t.pc == 0x202 && t.reg 3 == 0xAA) = true := by decide
theorem test_waiting_W2 : answers (step (waiting 3 0x0A00))
    (fun t => okWith false false t && t.reg 3 == 9 && t.wait == .running && t.pc == 0x202) = true := by decide
theorem test_waiting_W7 : answers (step { waiting 1 0 with pc := 0xFFF, dt := 10, st := 3 })
    (fun t => okWith false true t && t.pc == 0xFFF && t.dt == 9 && t.wait == .waitingForKey 1) = true := by decide
theorem test_fetch_T29 : answers (step { start 0x6105 with pc := 0xFFF }) (faultWith .fetchOutOfBounds 0 0xFFF) = true := by
  decide
theorem test_fault_commits_nothing_X1 : answers (step (feed 0xFFFF 0 { start 0x00EE with dt := 5, st := 1 }))
    (fun t => faultWith .stackUnderflow 0x00EE 0x200 t && t.dt == 5 && t.st == 1 && t.keys == 0) = true := by decide
theorem test_halted_X2 : answers (step (feed 0xFFFF 0 { halted with dt := 5 }))
    (fun t => faultWith .stackUnderflow 0x00EE 0x200 t && t.dt == 5) = true := by decide
theorem test_load_X7 : ((State.reset.load [1, 2, 3, 4]).load [9]).ram = [(0x200, 9), (0x201, 2), (0x202, 3), (0x203, 4)] := by
  decide
theorem test_load_X3_X4 : (halted.load [0x12]).fault ≠ none ∧ halted.hostReset.fault = none ∧
    halted.hostReset.ram.read 0x201 = 0 := by decide
theorem test_write_of_reset_content_leaves_the_list : ((State.reset.memWrite 0 1).memWrite 0 0xF0).ram = [] := by decide
theorem test_fault_codes : [FaultKind.stackOverflow, .stackUnderflow, .memoryOutOfBounds, .fetchOutOfBounds, .pcOutOfRange,
    .keyIndexOutOfRange].map FaultKind.code = [1, 2, 3, 4, 5, 6] := by decide

/-! ## Witnesses: states and operands that meet all the hypotheses of a statement, clause by clause -/

theorem witness_DecodeOfEncode : (Instr.draw 15 15 15).wellFormed = true := by decide
theorem witness_EncodeOfDecode : ∃ i : Instr, decode 0x812E = .ok i := ⟨.shl 1 2, by decide⟩
theorem witness_DecodeFollowsTable_two_of_one_row : decode 0x1234 = .ok (.jump 0x234) ∧
    (Instr.jump 0xFFF).row.selects 0x1234 = true := by decide
theorem witness_DecodeFollowsTable_no_row : decode 0x0000 = .error (.unrecognised 0x0000) := by decide
theorem witness_RamReadWrite_other_address : (0xFFF : Addr) ≠ 0 := by decide
theorem witness_FetchBigEndian_last : (startAt 0xFFE 0x1234).pc.toNat < 0xFFF := by decide
theorem witness_StepRunsDecodedInstruction_last : ∃ (s : State) (i : Instr) (rest : List Byte),
    s.fault = none ∧ s.wait = .running ∧ s.pc.toNat < 0xFFF ∧
    i.wellFormed = true ∧ decodeBytes [s.memRead s.pc, s.memRead (s.pc + 1)] = .ok (i, rest) :=
  ⟨startAt 0xFFE 0x1200, .jump 0x200, [], by decide⟩
theorem witness_UnrecognisedIsNoOp : ∃ (s : State) (w : Opcode), s.fault = none ∧ s.wait = .running ∧ s.fetch = some w ∧
    decode w = .error (.unrecognised w) ∧ CanAdvance s := ⟨startAt 0xFFD 0x5121, 0x5121, by decide⟩
theorem witness_UnrecognisedIsNoOp_past_the_end : ∃ (s : State) (w : Opcode),
    s.fault = none ∧ s.wait = .running ∧ s.fetch = some w ∧
    decode w = .error (.unrecognised w) ∧ ¬ CanAdvance s := ⟨startAt 0xFFE 0x0000, 0x0000, by decide⟩
theorem witness_FetchAtLastByteFaults : ∃ s : State, s.fault = none ∧ s.wait = .running ∧ s.pc = 0xFFF :=
  ⟨{ State.reset with pc := 0xFFF }, by decide⟩
theorem witness_HaltedTickChangesNothing : ∃ r : FaultRecord, halted.fault = some r := ⟨_, rfl⟩
theorem witness_HaltIsForever : ∃ r : FaultRecord, halted.fault = some r ∧ 0 < 1 := ⟨_, rfl, by decide⟩
theorem witness_WaitingTickWithNoKey : ∃ (s : State) (r : Reg), s.fault = none ∧ s.wait = .waitingForKey r ∧ s.input.keypad = 0 :=
  ⟨waiting 15 0, 15, by decide⟩
theorem witness_WaitingTickCapturesLeastKey_last_key : ∃ (s : State) (r : Reg), s.fault = none ∧ s.wait = .waitingForKey r ∧
    s.input.keypad ≠ 0 ∧ (0 : Reg) ≠ r ∧ s.input.keypad.getLsbD 15 = true ∧ ∀ j, j < 15 → s.input.keypad.getLsbD j = false :=
  ⟨waiting 15 0x8000, 15, by decide⟩
theorem witness_ChangedExactlyWhenDrawing : ∃ (s t : State) (o : OutputState),
    step s = .next t ∧ t.out = some (.ok o) ∧ o.changed = true :=
  ⟨start 0x00E0, _, _, rfl, rfl, rfl⟩
theorem witness_ChangedExactlyWhenDrawing_fault : ∃ s t : State, step s = .next t ∧ t.fault ≠ none :=
  ⟨start 0x00EE, _, rfl, by decide⟩
theorem witness_OutputIsTheStateAfterTheTick : ∃ (s t : State) (o : OutputState) (x : Reg),
    s.nextInstr = some (.setSound x) ∧ step s = .next t ∧
    t.out = some (.ok o) ∧ s.reg x ≠ 0 := ⟨(start 0xF118).setReg 1 1, _, _, 1, by decide, rfl, rfl, by decide⟩
theorem witness_OutputIsTheStateAfterTheTick_last_beep : ∃ (s t : State) (o : OutputState),
    s.wait = .running ∧ s.st = 1 ∧ (∀ x, s.nextInstr ≠ some (.setSound x)) ∧
    step s = .next t ∧ t.out = some (.ok o) :=
  ⟨{ start 0x00E0 with st := 1 }, _, _, by decide, by decide, fun _ => nextInstr_ne (i := .clearScreen) (by decide) nofun, rfl, rfl⟩
theorem witness_OldKeysAreNeverRead : ∃ s t t' : State, step s = .next t ∧ step { s with keys := 0xFFFF } = .next t' ∧ t.fault = none :=
  ⟨start 0xE19E, _, _, rfl, rfl, by decide⟩
theorem witness_OnlyRandReadsRnd : ∃ (s : State) (rest : List TickInput),
    s.inputs = ⟨0, 0⟩ :: rest ∧ ∀ x kk, s.nextInstr ≠ some (.rand x kk) :=
  ⟨start 0x00E0, [], rfl, fun _ _ => nextInstr_ne (i := .clearScreen) (by decide) nofun⟩
theorem witness_TimersStepEveryTick_step : ∃ s t : State, step s = .next t ∧ t.fault = none ∧
    (∀ x, s.nextInstr ≠ some (.setDelay x)) ∧ ∀ x, s.nextInstr ≠ some (.setSound x) :=
  ⟨{ start 0x00E0 with dt := 1, st := 255 }, _, rfl, by decide, fun _ => nextInstr_ne (i := .clearScreen) (by decide) nofun,
    fun _ => nextInstr_ne (i := .clearScreen) (by decide) nofun⟩
theorem witness_TimersStepEveryTick_setDelay : ∃ (s t : State) (x : Reg),
    step s = .next t ∧ t.fault = none ∧ s.nextInstr = some (.setDelay x) :=
  ⟨start 0xF115, _, 1, rfl, by decide, by decide⟩
theorem witness_TimersStepEveryTick_setSound : ∃ (s t : State) (x : Reg),
    step s = .next t ∧ t.fault = none ∧ s.nextInstr = some (.setSound x) :=
  ⟨start 0xF118, _, 1, rfl, by decide, by decide⟩
theorem witness_WaitMachine_enters : ∃ (s t : State) (x : Reg), s.fault = none ∧ step s = .next t ∧ s.wait = .running ∧
    s.nextInstr = some (.waitKey x) ∧ t.fault = none := ⟨startAt 0xFFD 0xFF0A, _, 15, rfl, rfl, rfl, by decide, by decide⟩
theorem witness_WaitMachine_stays_running : ∃ s t : State, s.fault = none ∧ step s = .next t ∧ s.wait = .running ∧
    ((∀ x, s.nextInstr ≠ some (.waitKey x)) ∨ t.fault ≠ none) :=
  ⟨startAt 0xFFE 0xFF0A, _, rfl, rfl, rfl, Or.inr (by decide)⟩
theorem witness_WaitMachine_stays_waiting : ∃ (s t : State) (r : Reg),
    s.fault = none ∧ step s = .next t ∧ s.wait = .waitingForKey r ∧
    s.input.keypad = 0 := ⟨waiting 15 0, _, 15, rfl, rfl, rfl, by decide⟩
theorem witness_WaitMachine_captures : ∃ (s t : State) (r : Reg), s.fault = none ∧ step s = .next t ∧ s.wait = .waitingForKey r ∧
    s.input.keypad ≠ 0 := ⟨waiting 0 1, _, 0, rfl, rfl, rfl, by decide⟩
theorem witness_WaitMachine_halted : ∃ s t : State, s.fault ≠ none ∧ step s = .next t := ⟨halted, _, by decide, rfl⟩
theorem witness_WhoWritesWhat_regs : (∃ s t : State, step s = .next t ∧ t.reg VF ≠ s.reg VF) ∧
    ∃ s t : State, step s = .next t ∧ s.wait = .waitingForKey 3 ∧ t.reg 3 ≠ s.reg 3 :=
  ⟨⟨start 0x6F01, _, rfl, by decide⟩, waiting 3 0x8000, _, rfl, by decide, by decide⟩
theorem witness_WhoWritesWhat_index_and_wait : (∃ s t : State, step s = .next t ∧ t.index ≠ s.index) ∧
    ∃ s t : State, step s = .next t ∧ t.wait ≠ s.wait := ⟨⟨start 0xA2F0, _, rfl, by decide⟩, start 0xF30A, _, rfl, by decide⟩
theorem witness_WhoWritesWhat_stack : ∃ s t : State, step s = .next t ∧ (t.sp ≠ s.sp ∨ t.stack ≠ s.stack) :=
  ⟨start 0x2300, _, rfl, by decide⟩
theorem witness_WhoWritesWhat_display_and_ram : (∃ s t : State, step s = .next t ∧ t.fb ≠ s.fb) ∧
    ∃ s t : State, step s = .next t ∧ t.ram ≠ s.ram :=
  ⟨⟨start 0xD011, _, rfl, by decide⟩, start 0xF033, _, rfl, by decide⟩
theorem witness_StaleStackEntriesAreUnobservable : ∃ s s' t t' : State, SameLive s s' ∧ s ≠ s' ∧ step s = .next t ∧ step s' = .next t' :=
  ⟨{ start 0x00EE with sp := 1 }, { start 0x00EE with sp := 1, stack := (Vector.replicate 16 0).set 1 0xABC }, _, _,
    ⟨rfl, by decide⟩, by decide, rfl, rfl⟩
theorem witness_FaultsExactlyByTheTable_handler : faultOf .ret (start 0) = some .stackUnderflow ∧
    faultOf (.call 0) { start 0 with sp := 16 } = some .stackOverflow ∧
    faultOf (.bcd 0) { start 0 with index := 0xFFE } = some .memoryOutOfBounds ∧
    faultOf (.skipKeyPressed 0) ((start 0).setReg 0 16) = some .keyIndexOutOfRange := by decide
theorem witness_FaultsExactlyByTheTable_pc_and_none : faultOf (.loadImm 0 0) (startAt 0xFFE 0) = some .pcOutOfRange ∧
    faultOf (.loadImm 0 0) (startAt 0xFFD 0) = none := by decide
theorem witness_FaultCommitsNothing : (∃ s t : State, s.fault = none ∧ step s = .next t ∧ t.fault ≠ none ∧ s.fetch = none) ∧
    ∃ s t : State, s.fault = none ∧ step s = .next t ∧ t.fault ≠ none ∧ s.fetch ≠ none :=
  ⟨⟨{ State.reset with pc := 0xFFF }, _, rfl, rfl, by decide, by decide⟩, start 0x00EE, _, rfl, rfl, by decide, by decide⟩
theorem witness_HandlerFaultComesFirst : ∃ s : State, ¬ CanAdvance s ∧ 0xFFF < s.index.toNat + 2 ∧
    0xFFF < s.index.toNat + (2 : Reg).val ∧ 0 < (3 : Fin 16).val ∧ 0xFFF < s.index.toNat + ((3 : Fin 16).val - 1) ∧
    15 < (s.reg 2).toNat ∧ s.sp.val = 16 := ⟨{ startAt 0xFFE 0 with index := 0xFFE, sp := 16 }.setReg 2 16, by decide⟩
theorem witness_HandlerFaultComesFirst_ret : ∃ s : State, ¬ CanAdvance s ∧ s.sp.val = 0 := ⟨startAt 0xFFE 0, by decide⟩
theorem witness_LoadWritesProgramOnly_written : 0x200 ≤ (0xFFF : Addr).toNat ∧
    (0xFFF : Addr).toNat - 0x200 < (List.replicate 3585 (1 : Byte)).length := by
  rw [List.length_replicate]; decide
theorem witness_LoadWritesProgramOnly_kept : ¬ (0x200 ≤ (0x1FF : Addr).toNat) := by decide
theorem witness_EveryTickKeepsInvariant : ∃ s t : State, State.Inv s ∧ step s = .next t := by
  refine ⟨{ start 0x6105 with dt := 1 }, _, ⟨by decide, ?_, ?_, ?_⟩, rfl⟩
  · intro r h; cases h.symm.trans (show _ = none by decide)
  · intro o h; cases h.symm.trans (show _ = none by decide)
  · intro r h; cases h.symm.trans (show _ = none by decide)
theorem witness_EveryTickKeepsInvariant_halted : ∃ s t : State, State.Inv s ∧ s.fault ≠ none ∧ step s = .next t := by
  refine ⟨halted, _, ⟨by decide, ?_, ?_, ?_⟩, by decide, rfl⟩
  · intro r h; cases h; exact ⟨by decide, by decide, by decide, by decide⟩
  · intro o h; cases h.symm.trans (show _ = none by decide)
  · intro r h; cases h.symm.trans (show _ = none by decide)
theorem witness_ControlTransferCommon_jumps :
    (∃ t : State, exec (.jump 0xFFF) (start 0) = .next t ∧ t.fault = none ∧ (start 0).fault = none) ∧
    (∃ t : State, exec (.jumpV0 0xF00) ((start 0).setReg 0 0xFF) = .next t ∧ t.fault = none) ∧
    (∃ t : State, exec (.call 0) { startAt 0xFFD 0 with sp := 15 } = .next t ∧ t.fault = none) ∧
    ∃ t : State, exec .ret { start 0 with sp := 16 } = .next t ∧ t.fault = none ∧ ∃ k : Fin 16, k.val + 1 = 16 :=
  ⟨⟨_, rfl, by decide, by decide⟩, ⟨_, rfl, by decide⟩, ⟨_, rfl, by decide⟩, _, rfl, by decide, 15, by decide⟩
theorem witness_ControlTransferCommon_skips :
    (∃ t : State, exec (.skipEqImm 0 0) (startAt 0xFFB 0) = .next t ∧ t.fault = none) ∧
    (∃ t : State, exec (.skipNeqImm 0 0) (startAt 0xFFD 0) = .next t ∧ t.fault = none) ∧
    (∃ t : State, exec (.skipEqReg 0 1) (startAt 0xFFB 0) = .next t ∧ t.fault = none) ∧
    ∃ t : State, exec (.skipNeqReg 0 1) (startAt 0xFFD 0) = .next t ∧ t.fault = none :=
  ⟨⟨_, rfl, by decide⟩, ⟨_, rfl, by decide⟩, ⟨_, rfl, by decide⟩, _, rfl, by decide⟩
theorem witness_ReturnPops : ({ start 0 with sp := 1 } : State).sp.val = (0 : Fin 16).val + 1 ∧
    ({ start 0 with sp := 16 } : State).sp.val = (15 : Fin 16).val + 1 ∧ (start 0).sp.val = 0 := by decide
theorem witness_CallPushes_pushes : ({ startAt 0xFFD 0 with sp := 15 } : State).sp.val = (15 : Fin 16).val ∧
    CanAdvance (startAt 0xFFD 0) ∧ (0 : Fin 16) ≠ 15 := by decide
theorem witness_CallPushes_faults : ({ start 0 with sp := 16 } : State).sp.val = 16 ∧
    ({ startAt 0xFFE 0 with sp := 15 } : State).sp.val < 16 ∧ ¬ CanAdvance (startAt 0xFFE 0) := by decide
theorem witness_CallReturnRoundTrip : ∃ s t u : State, s.fault = none ∧ exec (.call 0x300) s = .next t ∧ t.fault = none ∧
    u.sp = t.sp ∧ u.stack = t.stack :=
  ⟨{ startAt 0xFFD 0 with sp := 15 }, _, _, rfl, rfl, by decide, rfl, rfl⟩
theorem witness_JumpV0AddsV0 : (((start 0).setReg 0 0xFF).reg 0).toNat + (0xF00 : Addr).toNat ≤ 0xFFF ∧
    0xFFF < (((start 0).setReg 0 1).reg 0).toNat + (0xFFF : Addr).toNat := by decide
theorem witness_SkipsOnRegisters_room : CanSkip (startAt 0xFFB 0) ∧ ¬ CanSkip (startAt 0xFFD 0) ∧
    CanAdvance (startAt 0xFFD 0) ∧ (startAt 0xFFD 0).reg 0 ≠ 1 ∧ (startAt 0xFFD 0).reg 0 = 0 ∧
    ((startAt 0xFFD 0).setReg 0 1).reg 0 ≠ ((startAt 0xFFD 0).setReg 0 1).reg 1 := by decide
theorem witness_SkipsOnRegisters_past_the_end : ¬ CanSkip (startAt 0xFFC 0) ∧ (startAt 0xFFC 0).reg 0 = 0 ∧
    (startAt 0xFFC 0).reg 0 ≠ 1 ∧ (startAt 0xFFC 0).reg 0 = (startAt 0xFFC 0).reg 1 ∧
    ((startAt 0xFFC 0).setReg 0 1).reg 0 ≠ ((startAt 0xFFC 0).setReg 0 1).reg 1 := by decide
/-- LoadsAndAddImm, LogicOnAllBits, ArithmeticLaws, FlagIsWrittenLast, RandMasksTheInput, IndexWrites, ClearScreenClears,
TimerInstructions and WaitKeyEntersWait ask for this room and no more; the last `PC` that has it. -/
theorem witness_room_to_advance : ∃ s : State, CanAdvance s ∧ s.pc = 0xFFD := ⟨startAt 0xFFD 0, by decide⟩
theorem witness_LoadsAndAddImm : ∃ s : State, CanAdvance s ∧ s.reg VF = 0xFF := ⟨(startAt 0xFFD 0).setReg VF 0xFF, by decide⟩
theorem witness_LogicOnAllBits : ∃ s : State, CanAdvance s := ⟨startAt 0xFFD 0, by decide⟩
theorem witness_ArithmeticLaws : ∃ (s : State) (x y : Reg), CanAdvance s ∧ x ≠ VF ∧ s.reg x = s.reg y ∧
    (s.reg x).toNat + (s.reg y).toNat > 255 := ⟨((startAt 0xFFD 0).setReg 0 0x80).setReg 1 0x80, 0, 1, by decide⟩
theorem witness_FlagIsWrittenLast : ∃ s u u' : State, CanAdvance s ∧ exec (.shr 15 1) s = .next u ∧ exec (.shl 15 1) s = .next u' :=
  ⟨startAt 0xFFD 0, _, _, by decide, rfl, rfl⟩
theorem witness_RandMasksTheInput : ∃ s : State, CanAdvance s ∧ s.input.rnd = 0xFF := ⟨feed 0 0xFF (startAt 0xFFD 0), by decide⟩
theorem witness_IndexWrites : ∃ s : State, CanAdvance s ∧ s.index = 0xFFFF := ⟨{ startAt 0xFFD 0 with index := 0xFFFF }, by decide⟩
theorem witness_BcdStoresDigits : ∃ s : State, CanAdvance s ∧ s.index.toNat + 2 ≤ 0xFFF ∧
    (0xFFC : Addr).toNat < s.index.toNat := ⟨{ startAt 0xFFD 0 with index := 0xFFD }, by decide⟩
theorem witness_BcdStoresDigits_above : ∃ s : State, CanAdvance s ∧ s.index.toNat + 2 ≤ 0xFFF ∧
    s.index.toNat + 2 < (0x003 : Addr).toNat := ⟨startAt 0xFFD 0, by decide⟩
theorem witness_StoreRegsStoresRun_LoadRegsLoadsRun : ∃ (s : State) (x : Reg), CanAdvance s ∧ s.index.toNat + x.val ≤ 0xFFF ∧
    x = 15 ∧ (0xFEF : Addr).toNat < s.index.toNat := ⟨{ startAt 0xFFD 0 with index := 0xFF0 }, 15, by decide⟩
theorem witness_StoreRegsStoresRun_LoadRegsLoadsRun_one : ∃ (s : State) (x : Reg), CanAdvance s ∧
    s.index.toNat + x.val ≤ 0xFFF ∧ x < 15 ∧ s.index.toNat + x.val < (0x001 : Addr).toNat := ⟨startAt 0xFFD 0, 0, by decide⟩
theorem witness_IndexPastRamFaults : ∃ s : State, s.index.toNat = 0xFFE ∧ 0xFFF < s.index.toNat + 2 ∧
    0xFFF < s.index.toNat + (2 : Reg).val ∧ 0 < (3 : Fin 16).val ∧ 0xFFF < s.index.toNat + ((3 : Fin 16).val - 1) :=
  ⟨{ start 0 with index := 0xFFE }, by decide⟩
theorem witness_IndexPastRamFaults_no_row : ∃ s : State, (0 : Fin 16).val = 0 ∧ CanAdvance s ∧ s.index = 0xFFFF :=
  ⟨{ startAt 0xFFD 0 with index := 0xFFFF }, by decide⟩
theorem witness_StoresAreFetched_storeRegs : ∃ (s : State) (x : Reg), s.pc.toNat + 3 ≤ 0xFFF ∧ s.index.toNat + x.val ≤ 0xFFF ∧
    x = 15 ∧ s.index.toNat + (14 : Reg).val = s.pc.toNat + 2 ∧ s.index.toNat + (15 : Reg).val = s.pc.toNat + 3 :=
  ⟨{ startAt 0xFFC 0 with index := 0xFF0 }, 15, by decide⟩
theorem witness_StoresAreFetched_storeRegs_elsewhere : ∃ (s : State) (x : Reg), s.pc.toNat + 3 ≤ 0xFFF ∧
    s.index.toNat + x.val ≤ 0xFFF ∧ (∀ k : Reg, k ≤ x → s.index.toNat + k.val ≠ s.pc.toNat + 2) ∧
    ∀ k : Reg, k ≤ x → s.index.toNat + k.val ≠ s.pc.toNat + 3 := ⟨startAt 0xFFC 0, 0, by decide⟩
theorem witness_StoresAreFetched_bcd : (∃ s : State, s.pc.toNat + 3 ≤ 0xFFF ∧ s.index.toNat + 2 ≤ 0xFFF ∧
      s.index.toNat = s.pc.toNat + 2) ∧ (∃ s : State, s.pc.toNat + 3 ≤ 0xFFF ∧ s.index.toNat + 1 = s.pc.toNat + 2) ∧
    (∃ s : State, s.pc.toNat + 3 ≤ 0xFFF ∧ s.index.toNat + 2 = s.pc.toNat + 2) ∧
    ∃ s : State, s.pc.toNat + 3 ≤ 0xFFF ∧ s.index.toNat + 2 ≤ 0xFFF ∧ s.index.toNat = s.pc.toNat + 3 :=
  ⟨⟨{ startAt 0xFFB 0 with index := 0xFFD }, by decide⟩, ⟨{ startAt 0xFFC 0 with index := 0xFFD }, by decide⟩,
    ⟨{ startAt 0xFFC 0 with index := 0xFFC }, by decide⟩, { startAt 0xFFA 0 with index := 0xFFD }, by decide⟩
theorem witness_StoresAreFetched_load : ∃ s : State, s.pc = 0x200 := ⟨start 0, by decide⟩
theorem witness_ClearScreenClears : ∃ s : State, CanAdvance s ∧ s.fb[31] = 1 :=
  ⟨{ startAt 0xFFD 0 with fb := (Vector.replicate 32 0).set 31 1 }, by decide⟩
/-- A state whose sprite, one row of one pixel in the top left corner, meets a pixel that is on. -/
def meets : State := { { startAt 0xFFD 0 with index := 0xFFF, fb := (Vector.replicate 32 0).set 0 0x8000000000000000 } with
  ram := [(0xFFF, 0x80)] }
theorem witness_DrawFlipsSpritePixels_collision : CanAdvance meets ∧ meets.index.toNat + ((1 : Fin 16).val - 1) ≤ 0xFFF ∧
    ∃ r c, meets.pixel r c = true ∧ spritePixel meets 0 0 1 r c = true := ⟨by decide, by decide, 0, 0, by decide⟩
theorem witness_DrawFlipsSpritePixels_no_row : CanAdvance meets ∧ (0 : Fin 16).val = 0 ∧
    ¬ ∃ r c, meets.pixel r c = true ∧ spritePixel meets 0 0 0 r c = true := by
  refine ⟨by decide, rfl, ?_⟩
  rintro ⟨r, c, -, h⟩
  obtain ⟨b, -⟩ := of_decide_eq_true h
  exact b.elim0
theorem witness_DrawTwiceErases : ∃ (x y : Reg) (s t u : State), x ≠ VF ∧ y ≠ VF ∧ s.fault = none ∧
    exec (.draw x y 1) s = .next t ∧ t.fault = none ∧ exec (.draw x y 1) t = .next u ∧ u.fault = none :=
  ⟨0, 1, start 0xD011, _, _, by decide, by decide, rfl, rfl, by decide, rfl, by decide⟩
theorem witness_RowMaskWraps : (56 : Fin Config.width).val ≤ 56 ∧ ∀ j : Fin 8, (7 : Nat) ≠ (63 + j.val) % 64 := by decide
theorem witness_KeySkips : ((start 0).setReg 0 15 |>.reg 0).toNat ≤ 15 ∧ CanSkip (startAt 0xFFB 0) ∧
    CanAdvance (startAt 0xFFD 0) ∧ (startAt 0xFFD 0).input.keypad.getLsbD 15 = false ∧
    (feed 0x8000 0 (startAt 0xFFD 0)).input.keypad.getLsbD 15 = true ∧ 15 < ((start 0).setReg 0 16 |>.reg 0).toNat := by decide
theorem witness_TimerInstructions : ∃ s : State, CanAdvance s ∧ s.dt = 1 := ⟨{ startAt 0xFFD 0 with dt := 1 }, by decide⟩
theorem witness_WaitKeyEntersWait : ∃ s : State, CanAdvance s ∧ s.input.keypad = 0xFFFF :=
  ⟨feed 0xFFFF 0 (startAt 0xFFD 0), by decide⟩

end Sys2Proof.Tests
end

section
/-! SUPPORT. The handler of each instruction (40_execution_cycle.md R88) under one name, so that exec is runHandler over it for
every instruction alike, and what a handler can do, said once: the pieces it may write, the faults it may raise. -/

namespace Sys2Proof.Machine

/-! ## exec is one runHandler over the instruction's handler -/

/-- The handler of an instruction, R88; `exec_eq_runHandler` ties it to exec. -/
def handlerOf (i : Instr) (t : State) : Except FaultKind Handled :=
  match i with
  | .clearScreen => .ok ⟨{ t with fb := Vector.replicate Config.height 0 }, .advance, true⟩
  | .ret => match t.pop with
    | .error k => .error k
    | .ok (a, u) => jumpTo a.toNat u
  | .jump nnn => jumpTo nnn.toNat t
  | .call nnn => match t.push (BitVec.ofNat 12 (t.pc.toNat + Config.instrWidth)) with
    | .error k => .error k
    | .ok u => if t.pc.toNat + Config.instrWidth < Config.ramSize then jumpTo nnn.toNat u else .error .pcOutOfRange
  | .skipEqImm x kk => skipIf (decide (t.reg x = kk)) t
  | .skipNeqImm x kk => skipIf (decide (t.reg x ≠ kk)) t
  | .skipEqReg x y => skipIf (decide (t.reg x = t.reg y)) t
  | .loadImm x kk => advance (t.setReg x kk)
  | .addImm x kk => advance (t.setReg x (t.reg x + kk))
  | .loadReg x y => advance (t.setReg x (t.reg y))
  | .orReg x y => advance (t.setReg x (t.reg x ||| t.reg y))
  | .andReg x y => advance (t.setReg x (t.reg x &&& t.reg y))
  | .xorReg x y => advance (t.setReg x (t.reg x ^^^ t.reg y))
  | .addReg x y => advance (t.setWithFlag x (t.reg x + t.reg y) (carry (t.reg x) (t.reg y)))
  | .sub x y => advance (t.setWithFlag x (t.reg x - t.reg y) (noBorrow (t.reg x) (t.reg y)))
  | .shr x _ => advance (t.setWithFlag x (t.reg x >>> 1) (shrOut (t.reg x)))
  | .subn x y => advance (t.setWithFlag x (t.reg y - t.reg x) (noBorrow (t.reg y) (t.reg x)))
  | .shl x _ => advance (t.setWithFlag x (t.reg x <<< 1) (shlOut (t.reg x)))
  | .skipNeqReg x y => skipIf (decide (t.reg x ≠ t.reg y)) t
  | .loadI nnn => advance { t with index := nnn.setWidth 16 }
  | .jumpV0 nnn => jumpTo ((t.reg 0).toNat + nnn.toNat) t
  | .rand x kk => advance (t.setReg x (t.input.rnd &&& kk))
  | .draw x y n =>
    if n.val = 0 || inBounds t.index (n.val - 1) then
      let p := blit t ((t.reg x).toNat % Config.width) (t.reg y).toNat n.val
      .ok ⟨{ t with fb := p.1 }.setReg VF (flagByte p.2), .advance, true⟩
    else .error .memoryOutOfBounds
  | .skipKeyPressed x => match t.keyPressed x with
    | .error k => .error k
    | .ok pressed => skipIf pressed t
  | .skipKeyNotPressed x => match t.keyPressed x with
    | .error k => .error k
    | .ok pressed => skipIf (!pressed) t
  | .readDelay x => advance (t.setReg x t.dt)
  | .waitKey x => advance { t with wait := .waitingForKey x }
  | .setDelay x => advance { t with dt := t.reg x }
  | .setSound x => advance { t with st := t.reg x }
  | .addI x => advance { t with index := t.index + (t.reg x).setWidth 16 }.addIFlag
  | .fontAddr x => advance { t with index := (t.reg x).setWidth 16 * 5 }
  | .bcd x => if inBounds t.index 2 then advance (t.writeBytes (bcdDigits (t.reg x))) else .error .memoryOutOfBounds
  | .storeRegs x => if inBounds t.index x.val then advance (t.writeBytes (t.regsUpTo x)) else .error .memoryOutOfBounds
  | .loadRegs x =>
    if inBounds t.index x.val then advance (t.setRegsFrom 0 (t.readBytes (x.val + 1))) else .error .memoryOutOfBounds

/-- exec is the tick of the instruction's handler, with the instruction's own word as the opcode (R82, R88). -/
theorem exec_eq_runHandler (i : Instr) (s : State) : exec i s = .next (runHandler (encode i) s (handlerOf i)) := by
  cases i <;> rfl

/-! ## Everything the tick of a handler can do, the kind of the fault included (R90, R195) -/

/-- The tick takes the handler's own fault, or that of the PC action, or it commits what the handler answered. -/
theorem runHandler_outcome (w : Opcode) (s : State) (handler : State → Except FaultKind Handled) :
    (∃ k, (handler s.begin = .error k ∨ k = .pcOutOfRange) ∧ runHandler w s handler = s.takeFault k w) ∨
    (∃ r, handler s.begin = .ok r ∧ runHandler w s handler =
      ({ r.state with pc := BitVec.ofNat 12 (pcTarget r.state.pc r.act) } : State).commit r.changed) := by
  cases h : handler s.begin with
  | error k => exact .inl ⟨k, .inl rfl, runHandler_raise h⟩
  | ok r =>
    by_cases hp : pcTarget r.state.pc r.act < Config.ramSize
    · exact .inr ⟨r, rfl, runHandler_commit h hp⟩
    · exact .inl ⟨_, .inr rfl, runHandler_past h hp⟩

/-! ## A handler that advances (R89) -/

/-- With room to advance, the tick of a handler that advances commits its state. -/
theorem runHandler_advance {s u : State} {handler : State → Except FaultKind Handled} (w : Opcode) (hroom : CanAdvance s)
    (h : handler s.begin = advance u) (hpc : u.pc = s.pc) :
    runHandler w s handler = ({ u with pc := BitVec.ofNat 12 (s.pc.toNat + 2) } : State).commit false := by
  have hfit : pcTarget u.pc .advance < Config.ramSize := by rw [hpc, pcTarget_advance, ramSize_eq]; omega
  rw [runHandler_commit h hfit, hpc]
  rfl

/-- The `PC` of a tick that advanced. -/
theorem advanced_of_pc {s t : State} (hroom : CanAdvance s) (h : t.pc = BitVec.ofNat 12 (s.pc.toNat + 2)) : Advanced s t := by
  rw [Advanced, h, BitVec.toNat_ofNat]
  exact Nat.mod_eq_of_lt (by omega)

/-! ## The pieces a handler may write -/

/-- The pieces of state an instruction may write (R11, R15, R16, R18, R19, R22, R24, R55). -/
def writtenParts : Instr → List Part
  | .loadImm _ _ | .addImm _ _ | .loadReg _ _ | .orReg _ _ | .andReg _ _ | .xorReg _ _ | .addReg _ _ | .sub _ _
  | .shr _ _ | .subn _ _ | .shl _ _ | .rand _ _ | .readDelay _ | .loadRegs _ => [.regs]
  | .loadI _ | .addI _ | .fontAddr _ => [.index]
  | .ret | .call _ => [.stack]
  | .setDelay _ => [.delay]
  | .setSound _ => [.sound]
  | .waitKey _ => [.wait]
  | .clearScreen => [.display]
  | .draw _ _ _ => [.regs, .display]
  | .bcd _ | .storeRegs _ => [.ram]
  | .jump _ | .jumpV0 _ | .skipEqImm _ _ | .skipNeqImm _ _ | .skipEqReg _ _ | .skipNeqReg _ _ | .skipKeyPressed _
  | .skipKeyNotPressed _ => []

/-- `t` is `s` in every field but those of the named pieces: `PC`, `KEYS`, `FAULT` and the model's own fields too. -/
def ChangedOnly (parts : List Part) (s t : State) : Prop :=
  t = { s with
    v := if .regs ∈ parts then t.v else s.v
    index := if .index ∈ parts then t.index else s.index
    sp := if .stack ∈ parts then t.sp else s.sp
    stack := if .stack ∈ parts then t.stack else s.stack
    dt := if .delay ∈ parts then t.dt else s.dt
    st := if .sound ∈ parts then t.st else s.st
    wait := if .wait ∈ parts then t.wait else s.wait
    fb := if .display ∈ parts then t.fb else s.fb
    ram := if .ram ∈ parts then t.ram else s.ram }

theorem State.pop_frame {s u : State} {a : Addr} (h : s.pop = .ok (a, u)) : ChangedOnly [.stack] s u := by
  unfold State.pop at h
  split at h
  · cases h
  · cases h; rfl

theorem State.push_frame {s u : State} {a : Addr} (h : s.push a = .ok u) : ChangedOnly [.stack] s u := by
  unfold State.push at h
  split at h
  · cases h; rfl
  · cases h

/-- What a handler answers differs from the state it was given in the instruction's own pieces alone. -/
theorem handlerOf_changedOnly {i : Instr} {s : State} {r : Handled} (h : handlerOf i s = .ok r) :
    ChangedOnly (writtenParts i) s r.state := by
  cases i with
  | ret =>
    simp only [handlerOf] at h
    split at h
    · cases h
    · next hpop => cases h; exact State.pop_frame hpop
  | call nnn =>
    simp only [handlerOf] at h
    split at h
    · cases h
    · next hpush =>
      split at h
      · cases h; exact State.push_frame hpush
      · cases h
  | skipKeyPressed x | skipKeyNotPressed x =>
    simp only [handlerOf] at h
    split at h <;> cases h
    rfl
  | draw x y n =>
    simp only [handlerOf] at h
    split at h <;> cases h
    rfl
  | bcd x | storeRegs x =>
    simp only [handlerOf] at h
    split at h <;> cases h
    exact State.writeBytesFrom_frame ..
  | loadRegs x =>
    simp only [handlerOf] at h
    split at h <;> cases h
    exact State.setRegsFrom_frame ..
  | _ => cases h; rfl

/-! ## The faults a handler may raise -/

theorem State.pop_error {s : State} {k : FaultKind} (h : s.pop = .error k) : k = .stackUnderflow := by
  unfold State.pop at h
  split at h <;> cases h
  rfl

theorem State.push_error {s : State} {a : Addr} {k : FaultKind} (h : s.push a = .error k) : k = .stackOverflow := by
  unfold State.push at h
  split at h <;> cases h
  rfl

theorem State.keyPressed_error_kind {s : State} {x : Reg} {k : FaultKind} (h : s.keyPressed x = .error k) :
    k = .keyIndexOutOfRange := by
  unfold State.keyPressed at h
  split at h <;> cases h
  rfl

/-- A handler never raises the fault of the fetch (R190). -/
theorem handlerOf_error_ne_fetch {i : Instr} {s : State} {k : FaultKind} (h : handlerOf i s = .error k) :
    k ≠ .fetchOutOfBounds := by
  cases i with
  | ret =>
    simp only [handlerOf] at h
    split at h
    · next hpop => cases h; rw [State.pop_error hpop]; decide
    · cases h
  | call nnn =>
    simp only [handlerOf] at h
    split at h
    · next hpush => cases h; rw [State.push_error hpush]; decide
    · split at h <;> cases h
      decide
  | skipKeyPressed x | skipKeyNotPressed x =>
    simp only [handlerOf] at h
    split at h
    · next hkey => cases h; rw [State.keyPressed_error_kind hkey]; decide
    · cases h
  | draw x y n | bcd x | storeRegs x | loadRegs x =>
    simp only [handlerOf] at h
    split at h <;> cases h
    decide
  | _ => cases h

/-! ## The frame of a committed tick -/

section
variable {parts : List Part} {s t : State} (h : ChangedOnly parts s t)
include h

theorem ChangedOnly.pc : t.pc = s.pc := (congrArg State.pc h).trans rfl
theorem ChangedOnly.keys : t.keys = s.keys := (congrArg State.keys h).trans rfl
theorem ChangedOnly.fault : t.fault = s.fault := (congrArg State.fault h).trans rfl
theorem ChangedOnly.inputs : t.inputs = s.inputs := (congrArg State.inputs h).trans rfl
theorem ChangedOnly.ticks : t.ticks = s.ticks := (congrArg State.ticks h).trans rfl
theorem ChangedOnly.v (hp : .regs ∉ parts) : t.v = s.v := (congrArg State.v h).trans (if_neg hp)
theorem ChangedOnly.index (hp : .index ∉ parts) : t.index = s.index := (congrArg State.index h).trans (if_neg hp)
theorem ChangedOnly.sp (hp : .stack ∉ parts) : t.sp = s.sp := (congrArg State.sp h).trans (if_neg hp)
theorem ChangedOnly.stack (hp : .stack ∉ parts) : t.stack = s.stack := (congrArg State.stack h).trans (if_neg hp)
theorem ChangedOnly.dt (hp : .delay ∉ parts) : t.dt = s.dt := (congrArg State.dt h).trans (if_neg hp)
theorem ChangedOnly.st (hp : .sound ∉ parts) : t.st = s.st := (congrArg State.st h).trans (if_neg hp)
theorem ChangedOnly.wait (hp : .wait ∉ parts) : t.wait = s.wait := (congrArg State.wait h).trans (if_neg hp)
theorem ChangedOnly.fb (hp : .display ∉ parts) : t.fb = s.fb := (congrArg State.fb h).trans (if_neg hp)
theorem ChangedOnly.ram (hp : .ram ∉ parts) : t.ram = s.ram := (congrArg State.ram h).trans (if_neg hp)

end

/-- A handler that changed only some pieces of the tentative state: the committed tick kept the others (R86, R88). -/
theorem keptBut_commit {parts : List Part} {s u : State} (h : ChangedOnly parts s.begin u) (pc : Addr) (c : Bool) :
    KeptBut parts s (({ u with pc := pc } : State).commit c) := by
  intro p hp
  cases p with
  | regs => exact State.reg_congr (h.v hp)
  | index => exact h.index hp
  | stack => exact ⟨h.sp hp, h.stack hp⟩
  | delay => exact (congrArg BitVec.toNat (h.dt hp)).trans (timerStep_toNat s.dt)
  | sound => exact (congrArg BitVec.toNat (h.st hp)).trans (timerStep_toNat s.st)
  | wait => exact h.wait hp
  | display => exact State.pixel_congr (h.fb hp)
  | ram => exact State.memRead_congr (h.ram hp)

/-- A handler that changed only some pieces of the tentative state: the tick committed (R82, R90 to R93). -/
theorem committed_commit {parts : List Part} {s u : State} (h : ChangedOnly parts s.begin u) (pc : Addr) (c : Bool) :
    Committed s (({ u with pc := pc } : State).commit c) c where
  keys := h.keys
  fault := h.fault
  out := rfl
  inputs := congrArg List.tail h.inputs
  ticks := congrArg (· + 1) h.ticks

/-- A general register is written only by an instruction that R11 lets write it. -/
theorem handlerOf_reg {i : Instr} {s : State} {r : Handled} {q : Reg} (h : handlerOf i s = .ok r)
    (hq : i.mayWriteReg q = false) : r.state.reg q = s.reg q := by
  cases i with
  | loadImm x kk | addImm x kk | loadReg x y | orReg x y | andReg x y | xorReg x y | rand x kk | readDelay x =>
    cases h
    simp only [Instr.mayWriteReg, beq_eq_false_iff_ne] at hq
    rw [State.reg_setReg, if_neg hq]
  | addReg x y | sub x y | shr x y | subn x y | shl x y =>
    cases h
    simp only [Instr.mayWriteReg, Bool.or_eq_false_iff, beq_eq_false_iff_ne] at hq
    rw [State.reg_setWithFlag, if_neg hq.2, if_neg hq.1]
  | draw x y n =>
    simp only [handlerOf] at h
    split at h <;> cases h
    simp only [Instr.mayWriteReg, beq_eq_false_iff_ne] at hq
    rw [State.reg_setReg, if_neg hq]
    rfl
  | loadRegs x =>
    simp only [handlerOf] at h
    split at h <;> cases h
    have hx : ¬ q.val ≤ x.val := of_decide_eq_false hq
    rw [State.reg_setRegsFrom, State.length_readBytes, if_neg (by omega)]
  | _ => exact State.reg_congr ((handlerOf_changedOnly h).v (by simp [writtenParts])) q

/-- Every handler keeps RAM in canonical form. -/
theorem handlerOf_wf {i : Instr} {s : State} {r : Handled} (h : handlerOf i s = .ok r) (hwf : s.ram.wf = true) :
    r.state.ram.wf = true := by
  cases i with
  | bcd x | storeRegs x =>
    simp only [handlerOf] at h
    split at h <;> cases h
    exact State.writeBytesFrom_wf _ _ hwf
  | _ => rw [(handlerOf_changedOnly h).ram (by simp [writtenParts])]; exact hwf

end Sys2Proof.Machine
end

section
/-! SUPPORT. The opcode of an instruction is its encoding (30_encoding.md R64), and from it what a tick can do, said once for
proofs about what every tick keeps: halted, waiting, a fault at the fetched opcode, or a commit. -/

namespace Sys2Proof

/-! ## Decode, then encode -/

/-- The operand bits of what a tag decodes to are the bits of the opcode that its row's mask leaves out. -/
theorem operandBits_instr (w : Opcode) (t : Tag) : (t.instr w).operandBits = w &&& ~~~(Config.opcodeRow t).mask := by
  cases t with
  | clearScreen | ret => exact BitVec.and_zero.symm
  | jump | call | loadI | jumpV0 => exact bitsNNN_field w
  | skipEqImm | skipNeqImm | loadImm | addImm | rand => exact bitsXKK_field w
  | skipEqReg | loadReg | orReg | andReg | xorReg | addReg | sub | shr | subn | shl | skipNeqReg => exact bitsXY_field w
  | draw => exact bitsXYN_field w
  | skipKeyPressed | skipKeyNotPressed | readDelay | waitKey | setDelay | setSound | addI | fontAddr | bcd | storeRegs
  | loadRegs => exact bitsX_field w

/-- An opcode that decodes is the encoding of what it decodes to. -/
theorem encode_of_decode {w : Opcode} {i : Instr} (h : decode w = .ok i) : encode i = w := by
  obtain ⟨t, ht, rfl⟩ := decode_ok h
  rw [encode, Instr.row, Tag.tag_instr, operandBits_instr]
  exact pattern_or_rest ht rfl

end Sys2Proof

namespace Sys2Proof.Machine

/-! ## The next instruction -/

theorem nextInstr_of_decode {s : State} {w : Opcode} {i : Instr} (hf : s.fault = none) (hw : s.wait = .running)
    (hx : s.fetch = some w) (hd : decode w = .ok i) : s.nextInstr = some i := by
  simp only [State.nextInstr, hf, hw, hx, hd, and_self, ↓reduceIte, Option.bind_some]

theorem nextInstr_of_unrecognised {s : State} {w : Opcode} {e : DecodeError} (hx : s.fetch = some w)
    (hd : decode w = .error e) : s.nextInstr = none := by
  simp only [State.nextInstr, hx, hd, Option.bind_some, ite_self]

/-! ## A committing tick -/

/-- What a running tick that commits has done to the tentative state: the handler's work of the instruction that ran, or
nothing where the opcode was unrecognised (R65, R88). -/
def RanHandler (s u : State) : Prop :=
  (∃ i r, s.nextInstr = some i ∧ handlerOf i s.begin = .ok r ∧ u = r.state) ∨ (s.nextInstr = none ∧ u = s.begin)

/-- The four things a tick can be: halted, waiting, a fault recorded at the fetched opcode, or a commit. -/
theorem step_outcome {s t : State} (h : step s = .next t) :
    (∃ r, s.fault = some r ∧ t = s.haltedTick r) ∨
    (∃ r, s.fault = none ∧ s.wait = .waitingForKey r ∧ t = s.waitingTick r) ∨
    (∃ k, s.fault = none ∧ s.wait = .running ∧ (k = .fetchOutOfBounds ↔ s.fetch = none) ∧
      t = s.takeFault k (s.fetch.getD 0)) ∨
    (∃ u pc c, s.fault = none ∧ s.wait = .running ∧ RanHandler s u ∧ t = ({ u with pc := pc } : State).commit c) := by
  rcases step_cases h with h | h | ⟨hf, hw, hx, ht⟩ | ⟨w, i, hf, hw, hx, hd, he⟩ | ⟨w, e, hf, hw, hx, hd, ht⟩
  · exact .inl h
  · exact .inr (.inl h)
  · exact .inr (.inr (.inl ⟨.fetchOutOfBounds, hf, hw, iff_of_true rfl hx, by rw [hx]; exact ht⟩))
  · rw [exec_eq_runHandler, encode_of_decode hd, Host.Outcome.next.injEq] at he
    rcases runHandler_outcome w s (handlerOf i) with ⟨k, hk, hr⟩ | ⟨r, hr, hc⟩
    · have hne : k ≠ .fetchOutOfBounds := hk.elim handlerOf_error_ne_fetch (· ▸ by decide)
      exact .inr (.inr (.inl ⟨k, hf, hw, by simp only [hne, hx, reduceCtorEq], by rw [hx, ← he]; exact hr⟩))
    · have hran : RanHandler s r.state := .inl ⟨i, r, nextInstr_of_decode hf hw hx hd, hr, rfl⟩
      exact .inr (.inr (.inr ⟨r.state, _, _, hf, hw, hran, he ▸ hc⟩))
  · rcases runHandler_outcome w s advance with ⟨k, hk, hr⟩ | ⟨r, hr, hc⟩
    · have hne : k ≠ .fetchOutOfBounds := hk.elim nofun (· ▸ by decide)
      exact .inr (.inr (.inl ⟨k, hf, hw, by simp only [hne, hx, reduceCtorEq], by rw [hx, ht]; exact hr⟩))
    · cases hr
      exact .inr (.inr (.inr ⟨s.begin, _, _, hf, hw, .inr ⟨nextInstr_of_unrecognised hx hd, rfl⟩, ht.trans hc⟩))

/-- A piece that the instruction that ran does not write, or that no instruction could write, stays as it was. -/
theorem RanHandler.changedOnly {s u : State} (h : RanHandler s u) :
    ∃ parts, ChangedOnly parts s.begin u ∧ ∀ p ∈ parts, ∃ i, s.nextInstr = some i ∧ p ∈ writtenParts i := by
  obtain ⟨i, r, hi, hr, rfl⟩ | ⟨-, rfl⟩ := h
  · exact ⟨_, handlerOf_changedOnly hr, fun p hp => ⟨i, hi, hp⟩⟩
  · exact ⟨[], rfl, nofun⟩

/-! ## A waiting tick (R85) -/

/-- The key capture writes no RAM and no latch (R85). -/
theorem State.captureKey_frame (s : State) (r : Reg) (mask : KeyMask) :
    ChangedOnly [.regs, .wait] s (s.captureKey r mask) := by
  unfold State.captureKey
  split <;> rfl

/-- The tentative state of a waiting tick differs from `begin` in the captured register and the end of the wait alone (R85). -/
theorem waitingTick_eq (s : State) (r : Reg) :
    ∃ u, ChangedOnly [.regs, .wait] s.begin u ∧ (∀ q, q ≠ r → u.reg q = s.reg q) ∧ s.waitingTick r = u.commit false := by
  refine ⟨_, State.captureKey_frame s.begin r s.input.keypad, fun q hq => ?_, rfl⟩
  unfold State.captureKey
  split
  · rfl
  · exact (State.reg_setReg s.begin r q _).trans (if_neg hq)

/-! ## A tick always answers -/

/-- Every tick of every state has a next state (93_implementation_defined.md). -/
theorem step_answers (s : State) : ∃ t, step s = .next t := by
  cases hf : s.fault with
  | some r => exact ⟨_, step_halted hf⟩
  | none =>
    cases hw : s.wait with
    | waitingForKey r => exact ⟨_, step_waiting hf hw⟩
    | running =>
      cases hx : s.fetch with
      | none => exact ⟨_, step_noFetch hf hw hx⟩
      | some w =>
        cases hd : decode w with
        | ok i => exact ⟨_, (step_instr hf hw hx hd).trans (exec_eq_runHandler i s)⟩
        | error e => exact ⟨_, step_unrecognised hf hw hx hd⟩

end Sys2Proof.Machine
end

section
/-! PROOFS. The invariant: the reset state meets it and every tick keeps it (O31, O32). -/

namespace Sys2Proof.Machine

/-- A committed tick of an engine that is not halted meets the invariant wherever RAM is canonical. -/
theorem State.inv_commit {u : State} (c : Bool) (hwf : u.ram.wf = true) (hf : u.fault = none) : (u.commit c).Inv where
  ram := hwf
  latch r hr := by rw [State.commit_fault, hf] at hr; cases hr
  outOk o ho := by cases ho; exact ⟨hf, rfl, rfl⟩
  outFault r hr := by cases hr

/-- A fault taken by a running tick meets the invariant: the record names `PC` and the opcode there (R191, R192). -/
theorem State.inv_takeFault {s : State} {k : FaultKind} (hwf : s.ram.wf = true) (hw : s.wait = .running)
    (hk : k = .fetchOutOfBounds ↔ s.fetch = none) : (s.takeFault k (s.fetch.getD 0)).Inv where
  ram := hwf
  latch r hr := by
    have hx : (s.takeFault k (s.fetch.getD 0)).fetch = s.fetch := State.fetch_congr rfl rfl
    cases hr
    exact ⟨rfl, hw, by rw [hx], by rw [hx]; exact hk⟩
  outOk o ho := by cases ho
  outFault r hr := by cases hr; rfl

/-- A halted tick keeps the invariant. -/
theorem State.inv_haltedTick {s : State} {r : FaultRecord} (h : s.Inv) (hf : s.fault = some r) : (s.haltedTick r).Inv where
  ram := h.ram
  latch q hq := by
    rw [State.fetch_congr (s := s) (State.haltedTick_pc s r) (State.haltedTick_ram s r)]
    exact h.latch q hq
  outOk o ho := by cases ho
  outFault q hq := by cases hq; exact hf

/-- A running tick's handler keeps RAM in canonical form. -/
theorem RanHandler.wf {s u : State} (h : RanHandler s u) (hwf : s.ram.wf = true) : u.ram.wf = true := by
  obtain ⟨i, r, -, hr, rfl⟩ | ⟨-, rfl⟩ := h
  · exact handlerOf_wf hr hwf
  · exact hwf

/-- Settles O32: the invariant holds after each of the four things a tick can be. -/
theorem everyTickKeepsInvariant : Obligations.EveryTickKeepsInvariant := by
  intro s t hinv h
  rcases step_outcome h with ⟨r, hf, rfl⟩ | ⟨r, hf, -, rfl⟩ | ⟨k, hf, hw, hk, rfl⟩ | ⟨u, pc, c, hf, -, hu, rfl⟩
  · exact State.inv_haltedTick hinv hf
  · obtain ⟨u, hu, -, heq⟩ := waitingTick_eq s r
    rw [heq]
    exact State.inv_commit false (hu.ram (by decide) ▸ hinv.ram) (hu.fault.trans hf)
  · exact State.inv_takeFault hinv.ram hw hk
  · obtain ⟨parts, hparts, -⟩ := hu.changedOnly
    exact State.inv_commit c (hu.wf hinv.ram) (hparts.fault.trans hf)

/-- Settles O31: the RAM list, the latch and the last result are empty. -/
theorem resetMeetsInvariant : Obligations.ResetMeetsInvariant where
  ram := State.reset_wf
  latch _ hr := by cases hr
  outOk _ ho := by cases ho
  outFault _ hr := by cases hr

end Sys2Proof.Machine
end

section
/-! PROOFS. Who writes what over one tick (O23). -/

namespace Sys2Proof.Machine

/-! ## The instructions that write a piece -/

theorem mem_writtenParts_index {i : Instr} (h : Part.index ∈ writtenParts i) :
    (∃ nnn, i = .loadI nnn) ∨ ∃ x, i = .addI x ∨ i = .fontAddr x := by
  cases i with
  | loadI nnn => exact .inl ⟨nnn, rfl⟩
  | addI x => exact .inr ⟨x, .inl rfl⟩
  | fontAddr x => exact .inr ⟨x, .inr rfl⟩
  | _ => simp [writtenParts] at h

theorem mem_writtenParts_stack {i : Instr} (h : Part.stack ∈ writtenParts i) : i = .ret ∨ ∃ nnn, i = .call nnn := by
  cases i with
  | ret => exact .inl rfl
  | call nnn => exact .inr ⟨nnn, rfl⟩
  | _ => simp [writtenParts] at h

theorem mem_writtenParts_wait {i : Instr} (h : Part.wait ∈ writtenParts i) : ∃ x, i = .waitKey x := by
  cases i with
  | waitKey x => exact ⟨x, rfl⟩
  | _ => simp [writtenParts] at h

theorem mem_writtenParts_display {i : Instr} (h : Part.display ∈ writtenParts i) : i.draws = true := by
  cases i with
  | clearScreen | draw x y n => rfl
  | _ => simp [writtenParts] at h

theorem mem_writtenParts_ram {i : Instr} (h : Part.ram ∈ writtenParts i) : ∃ x, i = .bcd x ∨ i = .storeRegs x := by
  cases i with
  | bcd x => exact ⟨x, .inl rfl⟩
  | storeRegs x => exact ⟨x, .inr rfl⟩
  | _ => simp [writtenParts] at h

/-! ## Over one tick -/

/-- A running tick that changed a register ran an instruction that may write it (R11). -/
theorem RanHandler.mayWriteReg {s u : State} {q : Reg} (h : RanHandler s u) (hq : u.reg q ≠ s.begin.reg q) :
    ∃ i, s.nextInstr = some i ∧ i.mayWriteReg q = true := by
  obtain ⟨i, r, hi, hr, rfl⟩ | ⟨-, rfl⟩ := h
  · exact ⟨i, hi, Bool.not_eq_false _ ▸ fun hno => hq (handlerOf_reg hr hno)⟩
  · exact absurd rfl hq

/-- Settles O23: a halted or faulting tick writes none of these pieces, a waiting tick a register and the wait, and a
running tick that commits those of its handler. -/
theorem whoWritesWhat : Obligations.WhoWritesWhat := by
  intro s t h
  rcases step_outcome h with ⟨r, hf, rfl⟩ | ⟨r, hf, hw, rfl⟩ | ⟨k, hf, hw, hk, rfl⟩ | ⟨u, pc, c, hf, -, hu, rfl⟩
  · simp  -- every field by its lemma of Laws/State: a halted tick writes none
  · obtain ⟨u, hu, hreg, heq⟩ := waitingTick_eq s r
    rw [heq]
    refine ⟨fun q hq => .inr ?_, fun hne => absurd (hu.index (by decide)) hne, fun hne => ?_, fun _ => .inr ⟨r, hw⟩,
      fun hne => absurd (hu.fb (by decide)) hne, fun hne => absurd (hu.ram (by decide)) hne⟩
    · have hqr : q = r := not_imp_comm.mp (hreg q) hq
      rw [hqr, hw]
    · exact hne.elim (absurd (hu.sp (by decide))) (absurd (hu.stack (by decide)))
  · simp  -- likewise: a faulting tick writes the latch alone
  · obtain ⟨parts, hparts, hran⟩ := hu.changedOnly
    refine ⟨fun q hq => .inl (hu.mayWriteReg hq), fun hne => ?_, fun hne => ?_, fun hne => ?_, fun hne => ?_, fun hne => ?_⟩
    · obtain ⟨i, hi, hp⟩ := hran .index (not_imp_comm.mp hparts.index hne)
      simpa [hi] using mem_writtenParts_index hp
    · obtain ⟨i, hi, hp⟩ := hran .stack (hne.elim (not_imp_comm.mp hparts.sp) (not_imp_comm.mp hparts.stack))
      simpa [hi] using mem_writtenParts_stack hp
    · obtain ⟨i, hi, hp⟩ := hran .wait (not_imp_comm.mp hparts.wait hne)
      exact .inl ((mem_writtenParts_wait hp).imp fun x (hx : i = .waitKey x) => hx ▸ hi)
    · obtain ⟨i, hi, hp⟩ := hran .display (not_imp_comm.mp hparts.fb hne)
      exact ⟨i, hi, mem_writtenParts_display hp⟩
    · obtain ⟨i, hi, hp⟩ := hran .ram (not_imp_comm.mp hparts.ram hne)
      simpa [hi] using mem_writtenParts_ram hp

end Sys2Proof.Machine
end

section
/-! PROOFS. Pieces a tick cannot see: an old keypad latch (O19), `rnd` where rand does not run (O20), stack entries at or above
`SP` (O24). One law compares the ticks of two states that take the same branch; each proof then compares the handlers. -/

namespace Sys2Proof.Machine

/-! ## Two ticks side by side -/

/-- Two handlers' answers agree: the same fault, or the same PC action and `changed` on states with the same `PC` that are in
relation `Q`. -/
def AnswersAgree (Q : State → State → Prop) : Except FaultKind Handled → Except FaultKind Handled → Prop
  | .error k, .error k' => k' = k
  | .ok r, .ok r' => Q r.state r'.state ∧ r'.state.pc = r.state.pc ∧ r'.act = r.act ∧ r'.changed = r.changed
  | _, _ => False

/-- The ticks of two handlers whose answers agree: the same fault is taken, or related states are committed alike. -/
theorem runHandler_related {Q R : State → State → Prop} {w : Opcode} {s s' : State}
    {handler : State → Except FaultKind Handled} (h : AnswersAgree Q (handler s.begin) (handler s'.begin))
    (fault : ∀ k w, R (s.takeFault k w) (s'.takeFault k w))
    (commit : ∀ u u' pc c, Q u u' → R (({ u with pc := pc } : State).commit c) (({ u' with pc := pc } : State).commit c)) :
    R (runHandler w s handler) (runHandler w s' handler) := by
  cases hs : handler s.begin with
  | error k =>
    cases hs' : handler s'.begin with
    | error k' =>
      rw [hs, hs'] at h
      rw [runHandler_raise hs, runHandler_raise hs', show k' = k from h]
      exact fault k w
    | ok r' => rw [hs, hs'] at h; exact h.elim
  | ok r =>
    cases hs' : handler s'.begin with
    | error k' => rw [hs, hs'] at h; exact h.elim
    | ok r' =>
      rw [hs, hs'] at h
      obtain ⟨hQ, hpc, hact, hchanged⟩ := h
      by_cases hp : pcTarget r.state.pc r.act < Config.ramSize
      · rw [runHandler_commit hs hp, runHandler_commit hs' (by rw [hpc, hact]; exact hp), hpc, hact, hchanged]
        exact commit _ _ _ _ hQ
      · rw [runHandler_past hs hp, runHandler_past hs' (by rw [hpc, hact]; exact hp)]
        exact fault _ w

/-- Two states that take the same branch of a tick take ticks in relation `R`, where the tentative states are in relation `Q`,
the handler that runs keeps `Q`, and each way a tick can end takes what it starts from into `R`. -/
theorem step_related {Q R : State → State → Prop} {s s' t t' : State} (h : step s = .next t) (h' : step s' = .next t')
    (hf : s'.fault = s.fault) (hw : s'.wait = s.wait) (hx : s'.fetch = s.fetch) (hpc : s'.pc = s.pc)
    (halted : ∀ r, s.fault = some r → R (s.haltedTick r) (s'.haltedTick r))
    (waiting : ∀ r, R (s.waitingTick r) (s'.waitingTick r))
    (fault : ∀ k w, R (s.takeFault k w) (s'.takeFault k w))
    (begin : Q s.begin s'.begin)
    (handled : ∀ i, s.nextInstr = some i → AnswersAgree Q (handlerOf i s.begin) (handlerOf i s'.begin))
    (commit : ∀ u u' pc c, Q u u' → R (({ u with pc := pc } : State).commit c) (({ u' with pc := pc } : State).commit c)) :
    R t t' := by
  rcases step_cases h with ⟨r, hr, rfl⟩ | ⟨r, hr, hwr, rfl⟩ | ⟨hr, hwr, hn, rfl⟩ | ⟨w, i, hr, hwr, hn, hd, he⟩ |
      ⟨w, e, hr, hwr, hn, hd, rfl⟩ <;> rw [← hf] at hr
  · rw [step_halted hr] at h'; cases h'; exact halted r (hf ▸ hr)
  · rw [step_waiting hr (hw.trans hwr)] at h'; cases h'; exact waiting r
  · rw [step_noFetch hr (hw.trans hwr) (hx.trans hn)] at h'; cases h'; exact fault _ _
  · rw [step_instr hr (hw.trans hwr) (hx.trans hn) hd, exec_eq_runHandler] at h'
    rw [exec_eq_runHandler] at he
    cases h'; cases he
    exact runHandler_related (handled i (nextInstr_of_decode (hf ▸ hr) hwr hn hd)) fault commit
  · rw [step_unrecognised hr (hw.trans hwr) (hx.trans hn) hd] at h'
    cases h'
    exact runHandler_related (handler := advance) ⟨begin, hpc, rfl, rfl⟩ fault commit

theorem AnswersAgree.refl {Q : State → State → Prop} (hQ : ∀ u, Q u u) (a : Except FaultKind Handled) :
    AnswersAgree Q a a := by
  cases a with
  | error k => exact rfl
  | ok r => exact ⟨hQ r.state, rfl, rfl, rfl⟩

/-! ## The old keypad latch -/

/-- A tick that commits latched this tick's keypad. -/
theorem step_latches_keys {s t : State} (h : step s = .next t) (ht : t.fault = none) : t.keys = s.input.keypad := by
  rcases step_outcome h with ⟨r, hf, rfl⟩ | ⟨r, -, -, rfl⟩ | ⟨k, -, -, -, rfl⟩ | ⟨u, pc, c, -, -, hu, rfl⟩
  · rw [State.haltedTick_fault, hf] at ht; cases ht
  · obtain ⟨u, hu, -, heq⟩ := waitingTick_eq s r
    rw [heq]
    exact hu.keys
  · cases ht
  · obtain ⟨parts, hparts, -⟩ := hu.changedOnly
    exact hparts.keys

/-- Settles O19: the tentative states of the two ticks are the same, because the latch overwrites `KEYS` first. -/
theorem oldKeysAreNeverRead : Obligations.OldKeysAreNeverRead := by
  intro s t t' k h h'
  have hrel : { t' with keys := 0 } = { t with keys := 0 } ∧ (t.fault = none → t' = t) :=
    step_related (Q := fun u u' => u' = u)
      (R := fun t t' => { t' with keys := 0 } = { t with keys := 0 } ∧ (t.fault = none → t' = t)) h h' rfl rfl rfl rfl
      (halted := fun r hr => ⟨rfl, fun hn => by rw [State.haltedTick_fault, hr] at hn; cases hn⟩)
      (waiting := fun r => ⟨rfl, fun _ => rfl⟩)
      (fault := fun k w => ⟨rfl, nofun⟩)
      (begin := rfl)
      (handled := fun i _ => AnswersAgree.refl (Q := fun u u' => u' = u) (fun _ => rfl) (handlerOf i s.begin))
      (commit := fun u u' pc c hu => by rw [hu]; exact ⟨rfl, fun _ => rfl⟩)
  exact ⟨hrel.1, fun ht => ⟨step_latches_keys h ht, hrel.2 ht⟩⟩

/-! ## The stack and the inputs, which handlers but return, call and rand do not look at -/

/-- Another stack and other inputs. -/
def State.withHidden (s : State) (stack : Vector Addr Config.stackDepth) (inputs : List TickInput) : State :=
  { s with stack := stack, inputs := inputs }

/-- A handler's answer, on another stack and other inputs. -/
def Handled.withHidden (stack : Vector Addr Config.stackDepth) (inputs : List TickInput) (r : Handled) : Handled :=
  { r with state := r.state.withHidden stack inputs }

/-- The instructions that read the stack or the random byte (R101, R103, R132). -/
def readsHidden : Instr → Bool
  | .ret | .call _ | .rand _ _ => true
  | _ => false

section
variable (s : State) (stack : Vector Addr Config.stackDepth) (inputs : List TickInput)

theorem writeBytesFrom_withHidden (k : Nat) (bytes : List Byte) :
    (s.withHidden stack inputs).writeBytesFrom k bytes = (s.writeBytesFrom k bytes).withHidden stack inputs := by
  induction bytes generalizing s k with
  | nil => rfl
  | cons b bytes ih => exact ih (s.memWrite (effAddr s.index k) b) (k + 1)

theorem setRegsFrom_withHidden (k : Nat) (bytes : List Byte) :
    (s.withHidden stack inputs).setRegsFrom k bytes = (s.setRegsFrom k bytes).withHidden stack inputs := by
  induction bytes generalizing s k with
  | nil => rfl
  | cons b bytes ih =>
    simp only [State.setRegsFrom]
    split
    · exact ih (s.setReg _ b) (k + 1)
    · exact ih s (k + 1)

theorem blit_withHidden (cx cy n : Nat) : blit (s.withHidden stack inputs) cx cy n = blit s cx cy n := by
  induction n with
  | zero => rfl
  | succ n ih => rw [blit, ih]; rfl

/-- Every other handler answers on another stack and other inputs what it answers on these. -/
theorem handlerOf_withHidden {i : Instr} (hi : readsHidden i = false) :
    handlerOf i (s.withHidden stack inputs) = (handlerOf i s).map (·.withHidden stack inputs) := by
  cases i with
  | ret | call nnn | rand x kk => cases hi
  | draw x y n =>
    simp only [handlerOf, blit_withHidden]
    rw [apply_ite (Except.map _)]
    rfl
  | skipKeyPressed x | skipKeyNotPressed x =>
    have hkey : (s.withHidden stack inputs).keyPressed x = s.keyPressed x := rfl
    simp only [handlerOf, hkey]
    cases s.keyPressed x <;> rfl
  | bcd x | storeRegs x =>
    simp only [handlerOf, State.writeBytes, writeBytesFrom_withHidden]
    rw [apply_ite (Except.map _)]
    rfl
  | loadRegs x =>
    simp only [handlerOf, setRegsFrom_withHidden]
    rw [apply_ite (Except.map _)]
    rfl
  | _ => rfl

theorem captureKey_withHidden (r : Reg) (mask : KeyMask) :
    (s.withHidden stack inputs).captureKey r mask = (s.captureKey r mask).withHidden stack inputs := by
  unfold State.captureKey
  split <;> rfl

variable {s stack inputs}

/-- The tentative state of a tick, on another stack and other inputs with the same keypad. -/
theorem begin_withHidden (hkey : (s.withHidden stack inputs).input.keypad = s.input.keypad) :
    (s.withHidden stack inputs).begin = s.begin.withHidden stack inputs := by
  simp only [State.begin, State.latchKeys, hkey]
  rfl

/-- A waiting tick is the same on another stack and other inputs with the same keypad, up to its end. -/
theorem waitingTick_withHidden (r : Reg) (hkey : (s.withHidden stack inputs).input.keypad = s.input.keypad) :
    (s.withHidden stack inputs).waitingTick r =
      ((s.begin.captureKey r s.input.keypad).withHidden stack inputs).commit false := by
  rw [← captureKey_withHidden, ← begin_withHidden hkey, ← hkey]
  rfl

/-- The end of a tick forgets the inputs the tick has used. -/
theorem endTick_withHidden (r : TickResult) (htail : inputs.tail = s.inputs.tail) :
    (s.withHidden s.stack inputs).endTick r = s.endTick r := by
  simp only [State.endTick, State.withHidden, htail]

/-- An instruction that does not read the stack does not write it. -/
theorem stack_not_mem_writtenParts {i : Instr} (hi : readsHidden i = false) : Part.stack ∉ writtenParts i := by
  cases i with
  | ret | call nnn => cases hi
  | _ => simp [writtenParts]

/-- The answers of such a handler agree in every relation that its answer and the same on another stack and inputs are in. -/
theorem answersAgree_withHidden {Q : State → State → Prop} {i : Instr} (hi : readsHidden i = false)
    (hQ : ∀ r, handlerOf i s = .ok r → Q r.state (r.state.withHidden stack inputs)) :
    AnswersAgree Q (handlerOf i s) (handlerOf i (s.withHidden stack inputs)) := by
  rw [handlerOf_withHidden s stack inputs hi]
  cases h : handlerOf i s with
  | error k => exact rfl
  | ok r => exact ⟨hQ r h, rfl, rfl, rfl⟩

/-- return reads live entries alone: where these are the same, its answers agree (R101). -/
theorem answersAgree_ret {Q : State → State → Prop}
    (live : ∀ k : Fin Config.stackDepth, k.val < s.sp.val → stack[k.val] = s.stack[k.val])
    (hQ : ∀ sp : Fin (Config.stackDepth + 1), sp.val < s.sp.val →
      Q { s with sp := sp } (State.withHidden { s with sp := sp } stack inputs)) :
    AnswersAgree Q (handlerOf .ret s) (handlerOf .ret (s.withHidden stack inputs)) := by
  cases h : s.sp.val with
  | zero =>
    simp only [handlerOf, State.pop_empty (s := s) h, State.pop_empty (s := s.withHidden stack inputs) h]
    exact rfl
  | succ k =>
    have hk : k < Config.stackDepth := Nat.lt_of_succ_lt_succ (h.symm.trans_lt s.sp.isLt)
    have hlt : k < s.sp.val := by omega
    have hlive : stack[k] = s.stack[k] := live ⟨k, hk⟩ hlt
    simp only [handlerOf, State.pop_ok (s := s) h hk, State.pop_ok (s := s.withHidden stack inputs) h hk]
    exact ⟨hQ ⟨k, Nat.lt_succ_of_lt hk⟩ hlt, rfl, congrArg (fun a : Addr => PcAction.jump a.toNat) hlive, rfl⟩

/-- call reads no stack entry and writes the one at `SP`, the same on either stack (R103). -/
theorem answersAgree_call {Q : State → State → Prop} (nnn : Addr)
    (hQ : ∀ (h : s.sp.val < Config.stackDepth) (a : Addr), Q
      { s with stack := s.stack.set s.sp.val a h, sp := ⟨s.sp.val + 1, Nat.succ_lt_succ h⟩ }
      { s with stack := stack.set s.sp.val a h, sp := ⟨s.sp.val + 1, Nat.succ_lt_succ h⟩, inputs := inputs }) :
    AnswersAgree Q (handlerOf (.call nnn) s) (handlerOf (.call nnn) (s.withHidden stack inputs)) := by
  by_cases h : s.sp.val < Config.stackDepth
  · simp only [handlerOf, State.push_ok (s := s) h, State.push_ok (s := s.withHidden stack inputs) h]
    by_cases hp : s.pc.toNat + Config.instrWidth < Config.ramSize
    · rw [if_pos hp, if_pos (show (s.withHidden stack inputs).pc.toNat + Config.instrWidth < Config.ramSize from hp)]
      exact ⟨hQ h _, rfl, rfl, rfl⟩
    · rw [if_neg hp, if_neg (show ¬ (s.withHidden stack inputs).pc.toNat + Config.instrWidth < Config.ramSize from hp)]
      exact rfl
  · simp only [handlerOf, State.push_full (s := s) h, State.push_full (s := s.withHidden stack inputs) h]
    exact rfl

end

/-! ## The random byte -/

/-- Two tentative states that differ in the inputs alone, which are `old` in the first and `new` in the second. -/
def SameButInputs (old new : List TickInput) (u u' : State) : Prop := u.inputs = old ∧ u' = u.withHidden u.stack new

/-- A handler other than rand's answers alike on other inputs. -/
theorem answersAgree_sameButInputs {i : Instr} (hi : ∀ x kk, i ≠ .rand x kk) (u : State) (new : List TickInput) :
    AnswersAgree (SameButInputs u.inputs new) (handlerOf i u) (handlerOf i (u.withHidden u.stack new)) := by
  cases hr : readsHidden i with
  | false =>
    refine answersAgree_withHidden hr fun r h => ?_
    have hframe := handlerOf_changedOnly h
    exact ⟨hframe.inputs, by rw [hframe.stack (stack_not_mem_writtenParts hr)]⟩
  | true =>
    cases i with
    | ret => exact answersAgree_ret (fun _ _ => rfl) fun _ _ => ⟨rfl, rfl⟩
    | call nnn => exact answersAgree_call nnn fun _ _ => ⟨rfl, rfl⟩
    | rand x kk => exact absurd rfl (hi x kk)
    | _ => cases hr

/-- Settles O20: `rnd` reaches a tick through the handler of rand alone, and the tick's inputs are used up at its end. -/
theorem onlyRandReadsRnd : Obligations.OnlyRandReadsRnd := by
  intro s keypad r r' rest hs hrand
  have hkey : (s.withHidden s.stack (⟨keypad, r'⟩ :: rest)).input.keypad = s.input.keypad := by
    simp only [State.input, State.withHidden, hs]
  have htail : List.tail (⟨keypad, r'⟩ :: rest) = s.inputs.tail := by rw [hs, List.tail_cons, List.tail_cons]
  have hbegin := begin_withHidden hkey
  obtain ⟨t, ht⟩ := step_answers s
  obtain ⟨t', ht'⟩ := step_answers (s.withHidden s.stack (⟨keypad, r'⟩ :: rest))
  have hrel : t' = t := step_related (Q := SameButInputs s.inputs (⟨keypad, r'⟩ :: rest)) (R := fun t t' => t' = t)
    ht ht' rfl rfl rfl rfl
    (halted := fun e _ => endTick_withHidden (.fault e) htail)
    (waiting := fun q => by
      have hframe := State.captureKey_frame s.begin q s.input.keypad
      have hstack : (s.begin.captureKey q s.input.keypad).stack = s.stack := hframe.stack (by decide)
      rw [waitingTick_withHidden q hkey, ← hstack]
      exact endTick_withHidden _ (htail.trans (congrArg List.tail hframe.inputs.symm)))
    (fault := fun k w => endTick_withHidden (s := { s with fault := some ⟨k, w, s.pc⟩ }) _ htail)
    (begin := ⟨rfl, hbegin⟩)
    (handled := fun i hi => hbegin ▸ answersAgree_sameButInputs (fun x kk he => hrand x kk (he ▸ hi)) s.begin _)
    (commit := fun u u' pc c ⟨hin, hu⟩ => by
      rw [hu]
      exact endTick_withHidden (s := { u with pc := pc }) _ (htail.trans (congrArg List.tail hin.symm)))
  rw [ht, ← hrel]
  exact ht'

/-! ## The stale stack entries -/

section
variable {u v : State} {stack : Vector Addr Config.stackDepth}
  (live : ∀ k : Fin Config.stackDepth, k.val < u.sp.val → stack[k.val] = u.stack[k.val])
include live

/-- A stack with the same live entries stays one through what leaves the stack alone. -/
theorem sameLive_of_changedOnly {parts : List Part} (h : ChangedOnly parts u v) (hp : .stack ∉ parts) :
    SameLive v (v.withHidden stack u.inputs) :=
  ⟨by rw [← h.inputs]; rfl, by rw [h.sp hp, h.stack hp]; exact live⟩

/-- Handlers cannot tell stale entries apart: their answers agree, on states with the same live entries. -/
theorem answersAgree_sameLive (i : Instr) :
    AnswersAgree SameLive (handlerOf i u) (handlerOf i (u.withHidden stack u.inputs)) := by
  cases hr : readsHidden i with
  | false =>
    exact answersAgree_withHidden hr fun r h =>
      sameLive_of_changedOnly live (handlerOf_changedOnly h) (stack_not_mem_writtenParts hr)
  | true =>
    cases i with
    | ret => exact answersAgree_ret live fun sp hsp => ⟨rfl, fun k hk => live k (hk.trans hsp)⟩
    | call nnn =>
      refine answersAgree_call nnn fun h a => ⟨rfl, fun k hk => ?_⟩
      by_cases hk' : u.sp.val = k.val
      · simp only [Vector.getElem_set, hk', ↓reduceIte]
      · have hlt : k.val < u.sp.val := lt_of_le_of_ne (Nat.lt_succ_iff.mp hk) (Ne.symm hk')
        simpa only [Vector.getElem_set, hk', ↓reduceIte] using live k hlt
    | rand x kk => exact ⟨⟨rfl, live⟩, rfl, rfl, rfl⟩
    | _ => cases hr

end

theorem SameLive.commit {u u' : State} (h : SameLive u u') (pc : Addr) (c : Bool) :
    SameLive (({ u with pc := pc } : State).commit c) (({ u' with pc := pc } : State).commit c) :=
  ⟨congrArg (fun v : State => ({ v with pc := pc } : State).commit c) h.1, h.2⟩

/-- Settles O24: each way a tick can end keeps the stack and `SP` together, and a handler reads only what is live. -/
theorem staleStackEntriesAreUnobservable : Obligations.StaleStackEntriesAreUnobservable := by
  intro s s' t t' ⟨hs, live⟩ h h'
  replace hs : s' = s.withHidden s'.stack s.inputs := hs
  generalize s'.stack = stack at hs live
  subst hs
  exact step_related (Q := SameLive) h h' rfl rfl rfl rfl
    (halted := fun _ _ => ⟨rfl, live⟩)
    (waiting := fun r => by
      have hsame := sameLive_of_changedOnly (u := s.begin) live (State.captureKey_frame s.begin r s.input.keypad) (by decide)
      rw [waitingTick_withHidden r rfl]
      exact hsame.commit (s.begin.captureKey r s.input.keypad).pc false)
    (fault := fun _ _ => ⟨rfl, live⟩)
    (begin := ⟨rfl, live⟩)
    (handled := fun i _ => answersAgree_sameLive (u := s.begin) live i)
    (commit := fun u u' pc c hu => hu.commit pc c)

end Sys2Proof.Machine
end

section
/-! PROOFS. What reset leaves (O28), and the five flag writers of the ALU (O43). -/

namespace Sys2Proof.Machine

/-! ## Reset -/

/-- An address that nothing has written reads 0 past the font (R31, R41; decision D5). -/
theorem Memory.unlisted_past_font {a : Nat} (h : 80 ≤ a) : Memory.unlisted a = 0 := List.getD_eq_default _ _ h

/-- Settles O28: the font is compared byte by byte, all else reads off the reset state. -/
theorem resetState : Obligations.ResetState := by
  refine ⟨rfl, rfl, rfl, fun r => ?_, rfl, rfl, fun k => ?_, rfl, rfl, rfl, fun r c => ?_, by decide, fun a h => ?_⟩
  · exact Vector.getElem_replicate ..
  · exact Vector.getElem_replicate ..
  · have hrow : State.reset.fb[r.val] = 0 := Vector.getElem_replicate ..
    rw [State.pixel, hrow]
    exact BitVec.getLsbD_zero
  · exact Memory.unlisted_past_font h

/-! ## The flag writers -/

/-- The state after a tick that writes `V[x]`, then the flag, and advances (R120). -/
def flagTick (x : Reg) (result : Byte) (flag : Bool) (s : State) : State :=
  ({ s.begin.setWithFlag x result flag with pc := BitVec.ofNat 12 (s.pc.toNat + 2) } : State).commit false

/-- Such a tick leaves the flag in `VF` whatever `x` is, and changes no register but `V[x]` and `VF` (R12, R120). -/
theorem regAndFlag_flagTick {s : State} (x : Reg) (result : Byte) (flag : Bool) (hroom : CanAdvance s) :
    RegAndFlag x flag s (flagTick x result flag s) := by
  have hframe : ChangedOnly [.regs] s.begin (s.begin.setWithFlag x result flag) := rfl
  refine ⟨?_, fun r hx hf => ?_, advanced_of_pc hroom rfl, keptBut_commit hframe _ _, committed_commit hframe _ _⟩
  · exact (State.reg_setWithFlag s.begin x VF result flag).trans (if_pos rfl)
  · exact ((State.reg_setWithFlag s.begin x r result flag).trans (if_neg hf)).trans (if_neg hx)

/-- An instruction whose handler writes `V[x]`, then the flag, and advances. -/
theorem exec_flagTick {i : Instr} {s : State} {x : Reg} {result : Byte} {flag : Bool} (hroom : CanAdvance s)
    (h : handlerOf i s.begin = advance (s.begin.setWithFlag x result flag)) :
    exec i s = .next (flagTick x result flag s) := by
  rw [exec_eq_runHandler, runHandler_advance _ hroom h rfl]
  rfl

/-- Settles O43: all five handlers write the result first and the flag last, from the operands at entry. -/
theorem flagIsWrittenLast : Obligations.FlagIsWrittenLast := by
  intro x y s hroom
  have shr (y' : Reg) := exec_flagTick (i := .shr x y') hroom rfl
  have shl (y' : Reg) := exec_flagTick (i := .shl x y') hroom rfl
  exact ⟨⟨_, exec_flagTick hroom rfl, regAndFlag_flagTick _ _ _ hroom⟩,
    ⟨_, exec_flagTick hroom rfl, regAndFlag_flagTick _ _ _ hroom⟩,
    ⟨_, exec_flagTick hroom rfl, regAndFlag_flagTick _ _ _ hroom⟩,
    ⟨_, shr y, regAndFlag_flagTick _ _ _ hroom, fun y' u hu => Host.Outcome.next.inj (hu.symm.trans (shr y'))⟩,
    ⟨_, shl y, regAndFlag_flagTick _ _ _ hroom, fun y' u hu => Host.Outcome.next.inj (hu.symm.trans (shl y'))⟩⟩

end Sys2Proof.Machine
end

section
/-! PROOFS. RAM: reads, writes and fetches (O7, O8), the bounds check at `I` (O49), and a store seen by the next fetch (O50). -/

namespace Sys2Proof.Machine

/-! ## Reads, writes and fetches -/

/-- Settles O7: what is read after a write, and `memWrite` updates `ram` alone. -/
theorem ramReadWrite : Obligations.RamReadWrite := by
  intro s a b
  refine ⟨?_, fun a' ha => ?_, rfl⟩
  · rw [State.memRead_memWrite, if_pos rfl]
  · rw [State.memRead_memWrite, if_neg ha]

/-- The first byte of an opcode is its high half (R47). -/
theorem opcodeOf_toNat (hi lo : Byte) : (opcodeOf hi lo).toNat = hi.toNat * 256 + lo.toNat := by
  have hbytes : opcodeOf hi lo = hi ++ lo := by
    rw [opcodeOf, ← BitVec.setWidth_append_eq_shiftLeft_setWidth_or, BitVec.setWidth_eq]
  rw [hbytes, BitVec.toNat_append, ← Nat.shiftLeft_add_eq_or_of_lt lo.isLt, Nat.shiftLeft_eq]

theorem opcodeOf_div (hi lo : Byte) : (opcodeOf hi lo).toNat / 256 = hi.toNat := by
  have := lo.isLt
  rw [opcodeOf_toNat]
  omega

theorem opcodeOf_mod (hi lo : Byte) : (opcodeOf hi lo).toNat % 256 = lo.toNat := by
  have := lo.isLt
  rw [opcodeOf_toNat]
  omega

/-- A fetch below `0xFFF` reads the two bytes at `PC` (R47, R87). -/
theorem State.fetch_of_lt {s : State} (h : s.pc.toNat < 0xFFF) :
    s.fetch = some (opcodeOf (s.memRead s.pc) (s.memRead (s.pc + 1))) := by
  have hne : s.pc ≠ 0xFFF#12 := fun e => absurd (congrArg BitVec.toNat e) (Nat.ne_of_lt h)
  rw [State.fetch, if_neg hne]

/-- Settles O8: the fetch reads both bytes, and the opcode's number has the first one as its high half. -/
theorem fetchBigEndian : Obligations.FetchBigEndian := fun _ h => ⟨_, State.fetch_of_lt h, opcodeOf_toNat ..⟩

/-! ## The bounds check at `I` -/

/-- An instruction whose handler raises a fault takes that fault, from the state at entry (R192). -/
theorem exec_faultTaken {i : Instr} {s : State} {k : FaultKind} (h : handlerOf i s.begin = .error k) :
    ∃ t, exec i s = .next t ∧ FaultTaken s t k (encode i) :=
  ⟨s.takeFault k (encode i), by rw [exec_eq_runHandler, runHandler_raise h], rfl⟩

theorem not_inBounds {i : Index} {m : Nat} (h : 0xFFF < i.toNat + m) : ¬ inBounds i m = true := by
  rw [inBounds_iff]
  omega

/-- draw with no row to draw checks no bound and writes only the flag (R165 (b)). -/
theorem handlerOf_draw_zero (x y : Reg) {n : Fin 16} (t : State) (h : n.val = 0) :
    handlerOf (.draw x y n) t = .ok ⟨t.setReg VF 0, .advance, true⟩ := by
  simp only [handlerOf, h, decide_true, Bool.true_or, ↓reduceIte, blit, flagByte_false]

/-- Settles O49: the four handlers test the last offset before any byte moves, and draw skips the test for `n = 0`. -/
theorem indexPastRamFaults : Obligations.IndexPastRamFaults := by
  intro x y n s
  refine ⟨fun h => ?_, fun h => ?_, fun h => ?_, fun hn h => ?_, fun hn hroom => ?_⟩
  · exact exec_faultTaken (if_neg (not_inBounds h))
  · exact exec_faultTaken (if_neg (not_inBounds h))
  · exact exec_faultTaken (if_neg (not_inBounds h))
  · have hno : ¬ (decide (n.val = 0) || inBounds s.begin.index (n.val - 1)) = true := by
      rw [Bool.or_eq_true, decide_eq_true_eq]
      exact not_or.mpr ⟨Nat.ne_of_gt hn, not_inBounds h⟩
    exact exec_faultTaken (if_neg hno)
  · have hok := handlerOf_draw_zero x y s.begin hn
    have hfit : pcTarget s.pc .advance < Config.ramSize := Nat.lt_succ_of_le hroom
    refine ⟨_, (exec_eq_runHandler ..).trans (congrArg _ (runHandler_commit hok hfit)), ?_, rfl⟩
    exact committed_commit (handlerOf_changedOnly hok) _ true

/-! ## A store and the next fetch (R53) -/

/-- The state after a tick that stores bytes from `I` on and advances (R140). -/
def storeTick (bytes : List Byte) (s : State) : State :=
  ({ s.begin.writeBytes bytes with pc := BitVec.ofNat 12 (s.pc.toNat + 2) } : State).commit false

/-- An instruction whose handler stores bytes from `I` on and advances. -/
theorem exec_storeTick {i : Instr} {s : State} {bytes : List Byte} (hroom : CanAdvance s)
    (h : handlerOf i s.begin = advance (s.begin.writeBytes bytes)) : exec i s = .next (storeTick bytes s) := by
  have hpc : (s.begin.writeBytes bytes).pc = s.pc :=
    (congrArg State.pc (State.writeBytesFrom_frame s.begin 0 bytes)).trans (State.begin_pc s)
  rw [exec_eq_runHandler, runHandler_advance _ hroom h hpc]
  rfl

theorem exec_storeRegs {s : State} {x : Reg} (hroom : CanAdvance s) (h : s.index.toNat + x.val ≤ 0xFFF) :
    exec (.storeRegs x) s = .next (storeTick (s.regsUpTo x) s) :=
  exec_storeTick hroom (if_pos ((inBounds_iff ..).mpr h))

theorem exec_bcd {s : State} {x : Reg} (hroom : CanAdvance s) (h : s.index.toNat + 2 ≤ 0xFFF) :
    exec (.bcd x) s = .next (storeTick (bcdDigits (s.reg x)) s) :=
  exec_storeTick hroom (if_pos ((inBounds_iff ..).mpr h))

section
variable {s : State} {bytes : List Byte} (hfit : s.index.toNat + bytes.length ≤ 0x1000)
include hfit

/-- A byte of the stored run is what was stored to it. -/
theorem memRead_storeTick_stored {a : Addr} {k : Nat} (hk : k < bytes.length) (ha : s.index.toNat + k = a.toNat) :
    (storeTick bytes s).memRead a = bytes.getD k 0 := by
  have hk' : a.toNat - s.index.toNat = k := by omega
  refine (State.memRead_writeBytesFrom s.begin 0 bytes a hfit).trans ?_
  rw [State.begin_index, Nat.add_zero, if_pos (by omega), hk']

/-- A byte outside the stored run is what RAM held. -/
theorem memRead_storeTick_kept {a : Addr} (ha : ∀ k, k < bytes.length → s.index.toNat + k ≠ a.toNat) :
    (storeTick bytes s).memRead a = s.memRead a := by
  refine (State.memRead_writeBytesFrom s.begin 0 bytes a hfit).trans (if_neg fun ⟨hlo, hhi⟩ => ?_)
  rw [State.begin_index, Nat.add_zero] at hlo hhi
  exact ha (a.toNat - s.index.toNat) (by omega) (by omega)

end

/-- The addresses of the two bytes after the instruction at `pc`. -/
theorem toNat_nextBytes {pc : Addr} (h : pc.toNat + 3 ≤ 0xFFF) :
    (pc + 2).toNat = pc.toNat + 2 ∧ (pc + 3).toNat = pc.toNat + 3 := by
  constructor <;> bv_omega

/-- The fetch after a tick that stored bytes reads RAM as the stores left it, at `PC + 2` and `PC + 3`. -/
theorem fetch_storeTick {s : State} (bytes : List Byte) (hpc : s.pc.toNat + 3 ≤ 0xFFF) :
    (storeTick bytes s).fetch =
      some (opcodeOf ((storeTick bytes s).memRead (s.pc + 2)) ((storeTick bytes s).memRead (s.pc + 3))) := by
  have hnext : (storeTick bytes s).pc = s.pc + 2 := by
    change BitVec.ofNat 12 (s.pc.toNat + 2) = s.pc + BitVec.ofNat 12 2
    rw [BitVec.ofNat_add, BitVec.ofNat_toNat, BitVec.setWidth_eq]
  have hlt : (storeTick bytes s).pc.toNat < 0xFFF := by
    rw [hnext, (toNat_nextBytes hpc).1]
    omega
  rw [State.fetch_of_lt hlt, hnext, BitVec.add_assoc]
  rfl

/-! ### store-regs (R145) -/

section
variable {s : State} {x : Reg} (hfit : s.index.toNat + x.val ≤ 0xFFF)
include hfit

theorem regsUpTo_fit : s.index.toNat + (s.regsUpTo x).length ≤ 0x1000 := by
  rw [State.length_regsUpTo]
  omega

theorem memRead_storeRegs_stored {a : Addr} {k : Reg} (hk : k ≤ x) (ha : s.index.toNat + k.val = a.toNat) :
    (storeTick (s.regsUpTo x) s).memRead a = s.reg k := by
  have hlt : k.val < (s.regsUpTo x).length := (Nat.lt_succ_of_le hk).trans_eq (State.length_regsUpTo s x).symm
  exact (memRead_storeTick_stored (regsUpTo_fit hfit) hlt ha).trans (State.getD_regsUpTo s x k hk)

theorem memRead_storeRegs_kept {a : Addr} (ha : ∀ k : Reg, k ≤ x → s.index.toNat + k.val ≠ a.toNat) :
    (storeTick (s.regsUpTo x) s).memRead a = s.memRead a := by
  refine memRead_storeTick_kept (regsUpTo_fit hfit) fun k hk => ?_
  have hkx : k ≤ x.val := Nat.le_of_lt_succ (hk.trans_eq (State.length_regsUpTo s x))
  exact ha ⟨k, Nat.lt_of_le_of_lt hkx x.isLt⟩ hkx

end

/-! ### bcd (R144) -/

/-- The three digits of a byte as numbers: each fits in a byte. -/
theorem bcdDigits_toNat (b : Byte) :
    (bcdDigits b).map BitVec.toNat = [b.toNat / 100, b.toNat / 10 % 10, b.toNat % 10] := by
  have := b.isLt
  simp only [bcdDigits, List.map_cons, List.map_nil, BitVec.toNat_ofNat, List.cons.injEq, and_true]
  omega

section
variable {s : State} {b : Byte} (hfit : s.index.toNat + 2 ≤ 0xFFF)
include hfit

theorem bcdDigits_fit : s.index.toNat + (bcdDigits b).length ≤ 0x1000 := Nat.succ_le_succ hfit

theorem memRead_bcd_stored {a : Addr} (k : Nat) (hk : k < 3) (ha : s.index.toNat + k = a.toNat) :
    ((storeTick (bcdDigits b) s).memRead a).toNat = [b.toNat / 100, b.toNat / 10 % 10, b.toNat % 10].getD k 0 := by
  rw [memRead_storeTick_stored (bcdDigits_fit hfit) hk ha, ← bcdDigits_toNat]
  exact (List.getD_map (bcdDigits b) 0 BitVec.toNat).symm

theorem memRead_bcd_kept {a : Addr} (ha : a.toNat < s.index.toNat ∨ s.index.toNat + 2 < a.toNat) :
    (storeTick (bcdDigits b) s).memRead a = s.memRead a := by
  refine memRead_storeTick_kept (bcdDigits_fit hfit) fun k hk => ?_
  have : k < 3 := hk
  omega

end

/-! ### load (R81) -/

/-- What an address reads as after `load` from offset `j` on. -/
theorem State.memRead_loadFrom (s : State) (j : Nat) (bytes : List Byte) (a : Addr) :
    (s.loadFrom j bytes).memRead a =
      if 0x200 + j ≤ a.toNat ∧ a.toNat < 0x200 + j + bytes.length
      then bytes.getD (a.toNat - (0x200 + j)) 0 else s.memRead a := by
  induction bytes generalizing s j with
  | nil => exact (if_neg fun ⟨hlo, hhi⟩ => Nat.not_lt_of_le hlo hhi).symm
  | cons b bytes ih =>
    have hlt := a.isLt
    rw [State.loadFrom, ih, List.length_cons]
    by_cases hfirst : a.toNat = 0x200 + j
    · have hin : Config.progBase.toNat + j < Config.ramSize := by
        rw [progBase_toNat, ramSize_eq]
        omega
      have ha : a = BitVec.ofNat 12 (0x200 + j) := by rw [← hfirst, BitVec.ofNat_toNat, BitVec.setWidth_eq]
      rw [if_neg (by omega), if_pos hin, State.memRead_memWrite, progBase_toNat, if_pos ha, if_pos (by omega), hfirst,
        Nat.sub_self, List.getD_cons_zero]
    · have hkept : (if Config.progBase.toNat + j < Config.ramSize
          then s.memWrite (BitVec.ofNat 12 (Config.progBase.toNat + j)) b else s).memRead a = s.memRead a := by
        split
        · next hin =>
          have hne : a ≠ BitVec.ofNat 12 (Config.progBase.toNat + j) := fun e =>
            hfirst ((congrArg BitVec.toNat e).trans (Nat.mod_eq_of_lt hin))
          rw [State.memRead_memWrite, if_neg hne]
        · rfl
      rw [hkept]
      by_cases hrest : 0x200 + (j + 1) ≤ a.toNat ∧ a.toNat < 0x200 + (j + 1) + bytes.length
      · have hsucc : a.toNat - (0x200 + j) = a.toNat - (0x200 + (j + 1)) + 1 := by omega
        rw [if_pos hrest, if_pos (by omega), hsucc, List.getD_cons_succ]
      · rw [if_neg hrest, if_neg (by omega)]

/-- Byte `k` of the program is at `0x200 + k` after `load`. -/
theorem State.memRead_load (s : State) {bytes : List Byte} {a : Addr} (k : Nat) (hk : k < bytes.length)
    (ha : 0x200 + k = a.toNat) : (s.load bytes).memRead a = bytes.getD k 0 := by
  rw [State.load, State.memRead_loadFrom, if_pos (by omega), ← ha, Nat.add_zero, Nat.add_sub_cancel_left]

/-- The first fetch after `load`, from `0x200`, reads the first two bytes loaded. -/
theorem fetch_load {s : State} (hi lo : Byte) (rest : List Byte) (hpc : s.pc = 0x200) :
    (s.load (hi :: lo :: rest)).fetch = some (opcodeOf hi lo) := by
  have hload : (s.load (hi :: lo :: rest)).pc = 0x200#12 :=
    (congrArg State.pc (State.loadFrom_frame s 0 (hi :: lo :: rest))).trans hpc
  have hfirst : (s.load (hi :: lo :: rest)).memRead 0x200#12 = hi := State.memRead_load s 0 (Nat.succ_pos _) rfl
  have hsecond : (s.load (hi :: lo :: rest)).memRead (0x200#12 + 1) = lo :=
    State.memRead_load s 1 (Nat.succ_lt_succ (Nat.succ_pos _)) rfl
  rw [State.fetch_of_lt (by rw [hload]; decide), hload, hfirst, hsecond]

/-- Settles O50: a fetch reads RAM as it stands, so it is enough to say what each store left at the two bytes fetched. -/
theorem storesAreFetched : Obligations.StoresAreFetched := by
  refine ⟨fun x s hpc hfit => ?_, fun x s hpc hfit => ?_, fun s hi lo rest hpc => ?_⟩
  · obtain ⟨h2, h3⟩ := toNat_nextBytes hpc
    refine ⟨_, _, exec_storeRegs (by omega) hfit, fetch_storeTick _ hpc, ?_⟩
    rw [opcodeOf_div, opcodeOf_mod, ← h2, ← h3]
    exact ⟨fun k hk ha => congrArg _ (memRead_storeRegs_stored hfit hk ha),
      fun k hk ha => congrArg _ (memRead_storeRegs_stored hfit hk ha),
      fun ha => congrArg _ (memRead_storeRegs_kept hfit ha), fun ha => congrArg _ (memRead_storeRegs_kept hfit ha)⟩
  · obtain ⟨h2, h3⟩ := toNat_nextBytes hpc
    refine ⟨_, _, exec_bcd (by omega) hfit, fetch_storeTick _ hpc, ?_⟩
    rw [opcodeOf_toNat]
    refine ⟨fun ha => ?_, fun ha => ?_, fun ha => ?_, fun ha => ?_⟩
    · rw [memRead_bcd_stored hfit 0 (by omega) (by omega), memRead_bcd_stored hfit 1 (by omega) (by omega)]
      rfl
    · rw [memRead_bcd_stored hfit 1 (by omega) (by omega), memRead_bcd_stored hfit 2 (by omega) (by omega)]
      rfl
    · rw [memRead_bcd_stored hfit 2 (by omega) (by omega), memRead_bcd_kept hfit (by omega)]
      rfl
    · rw [memRead_bcd_kept hfit (by omega), memRead_bcd_stored hfit 0 (by omega) (by omega)]
      rfl
  · exact ⟨_, fetch_load hi lo rest hpc, opcodeOf_toNat hi lo⟩

end Sys2Proof.Machine
end

section
/-! PROOFS. The encoding of 30_encoding.md: decode and encode undo each other (O1, O2), the decoder follows the table (O3), the
unrecognised opcodes and the patterns as numbers (O4, O5), sample words (O6), and the tick of an unrecognised opcode (O10). -/

namespace Sys2Proof

/-! ## Encode, then decode -/

theorem fieldNNN_or {p q : Opcode} (h : p.extractLsb' Config.nnnPos 12 = 0) : fieldNNN (p ||| q) = fieldNNN q := by
  rw [fieldNNN, BitVec.extractLsb'_or, h, BitVec.ofNat_eq_ofNat, BitVec.zero_or, fieldNNN]

theorem fieldNNN_bitsNNN (nnn : Addr) : fieldNNN (bitsNNN nnn) = nnn := by
  rw [← fieldNNN_or (p := 0) (by decide), fieldNNN_bits (by decide)]

/-- The fields that an instruction reads lie outside the pattern of its row. -/
theorem instr_pattern_or (t : Tag) (b : Opcode) : t.instr ((Config.opcodeRow t).pattern ||| b) = t.instr b := by
  cases t with
  | clearScreen | ret => rfl
  | jump | call | loadI | jumpV0 => exact congrArg _ (fieldNNN_or (by decide))
  | skipEqImm | skipNeqImm | loadImm | addImm | rand =>
    simp (disch := decide) only [Tag.instr, fieldX_or, fieldKK_or]
  | skipEqReg | loadReg | orReg | andReg | xorReg | addReg | sub | shr | subn | shl | skipNeqReg =>
    simp (disch := decide) only [Tag.instr, fieldX_or, fieldY_or]
  | draw => simp (disch := decide) only [Tag.instr, fieldX_or, fieldY_or, fieldN_or]
  | skipKeyPressed | skipKeyNotPressed | readDelay | waitKey | setDelay | setSound | addI | fontAddr | bcd | storeRegs
  | loadRegs => exact congrArg _ (fieldX_or (by decide))

/-- The operand bits of an instruction hold its operands, each in its field (R61, R62). -/
theorem instr_operandBits (i : Instr) : i.tag.instr i.operandBits = i := by
  cases i with
  | clearScreen | ret => rfl
  | jump nnn | call nnn | loadI nnn | jumpV0 nnn => exact congrArg _ (fieldNNN_bitsNNN nnn)
  | skipEqImm x kk | skipNeqImm x kk | loadImm x kk | addImm x kk | rand x kk =>
    exact congrArg₂ _ (fieldX_bitsXKK x kk) (fieldKK_bitsXKK x kk)
  | skipEqReg x y | loadReg x y | orReg x y | andReg x y | xorReg x y | addReg x y | sub x y | shr x y | subn x y
  | shl x y | skipNeqReg x y => exact congrArg₂ _ (fieldX_bitsXY x y) (fieldY_bitsXY x y)
  | draw x y n =>
    simp only [Instr.tag, Tag.instr, Instr.operandBits, fieldX_bitsXYN, fieldY_bitsXYN, fieldN_bitsXYN]
  | skipKeyPressed x | skipKeyNotPressed x | readDelay x | waitKey x | setDelay x | setSound x | addI x | fontAddr x | bcd x
  | storeRegs x | loadRegs x => exact congrArg _ (fieldX_bitsX x)

theorem instr_encode (i : Instr) : i.tag.instr (encode i) = i :=
  (instr_pattern_or i.tag i.operandBits).trans (instr_operandBits i)

/-- The operands of an instruction stand outside the mask of its row. -/
theorem operandBits_and_mask (i : Instr) : i.operandBits &&& i.row.mask = 0 := by
  have hbits : i.operandBits = encode i &&& ~~~i.row.mask := by
    rw [Instr.row, ← operandBits_instr, instr_encode]
  rw [hbits, BitVec.and_assoc, BitVec.not_and_self]
  exact BitVec.and_zero

theorem row_selects_encode (i : Instr) : i.row.selects (encode i) = true := selects_or (operandBits_and_mask i)

theorem decode_encode (i : Instr) : decode (encode i) = .ok i :=
  (decode_of_selects (row_selects_encode i)).trans (congrArg _ (instr_encode i))

/-- Settles O1: the word selects the instruction's row, and its fields hold the operands. -/
theorem decodeOfEncode : Obligations.DecodeOfEncode := fun i _ => decode_encode i

/-! ## Decode, then encode -/

theorem Operands.fit_iff (o : Operands) :
    o.fit = true ↔ o.x < 16 ∧ o.y < 16 ∧ o.n < 16 ∧ o.kk < 256 ∧ o.nnn < 4096 := by
  simp only [Operands.fit, Bool.and_eq_true, decide_eq_true_eq, and_assoc]

/-- Every instruction is well formed: its types hold each operand in its field (log entry 30). -/
theorem Instr.wellFormed_eq_true (i : Instr) : i.wellFormed = true := by
  have unused {k : Nat} : 0 < k + 1 := k.succ_pos
  refine (Operands.fit_iff _).mpr ?_
  cases i with
  | clearScreen | ret => exact ⟨unused, unused, unused, unused, unused⟩
  | jump nnn | call nnn | loadI nnn | jumpV0 nnn => exact ⟨unused, unused, unused, unused, nnn.isLt⟩
  | skipEqImm x kk | skipNeqImm x kk | loadImm x kk | addImm x kk | rand x kk =>
    exact ⟨x.isLt, unused, unused, kk.isLt, unused⟩
  | skipEqReg x y | loadReg x y | orReg x y | andReg x y | xorReg x y | addReg x y | sub x y | shr x y | subn x y
  | shl x y | skipNeqReg x y => exact ⟨x.isLt, y.isLt, unused, unused, unused⟩
  | draw x y n => exact ⟨x.isLt, y.isLt, n.isLt, unused, unused⟩
  | skipKeyPressed x | skipKeyNotPressed x | readDelay x | waitKey x | setDelay x | setSound x | addI x | fontAddr x | bcd x
  | storeRegs x | loadRegs x => exact ⟨x.isLt, unused, unused, unused, unused⟩

/-- Settles O2: an opcode is its row's pattern with the bits its row's mask leaves out, which are the operand bits. -/
theorem encodeOfDecode : Obligations.EncodeOfDecode := fun _ i h => ⟨i.wellFormed_eq_true, encode_of_decode h⟩

/-! ## The decoder and the table -/

theorem decode_unrecognised_iff {w : Opcode} :
    decode w = .error (.unrecognised w) ↔ ∀ t, (Config.opcodeRow t).selects w = false := by
  rw [← decodeTag_eq_none, decode]
  cases decodeTag w with
  | none => exact iff_of_true rfl rfl
  | some t => exact iff_of_false nofun nofun

/-- Settles O3: rows do not overlap, and every row is the row of an instruction. -/
theorem decodeFollowsTable : Obligations.DecodeFollowsTable := by
  refine ⟨fun w i h => ?_, fun w => decode_unrecognised_iff.trans ⟨fun h j => h j.tag, fun h t => ?_⟩⟩
  · obtain ⟨t, ht, rfl⟩ := decode_ok h
    rw [Instr.row, Tag.tag_instr]
    exact ⟨ht, fun j hj => congrArg Config.opcodeRow (Tag.eq_of_selects hj ht)⟩
  · have hrow := h (t.instr w)
    rwa [Instr.row, Tag.tag_instr] at hrow

/-! ## The row an opcode selects, by the opcode's number -/

/-- Every mask of R64 keeps the major opcode and, below it, the `k` lowest bits for some `k`. -/
theorem Config.mask_shape (t : Tag) : ∃ k : Fin 13,
    (Config.opcodeRow t).mask = 0xF000#16 ||| BitVec.ofNat 16 (2 ^ k.val - 1) ∧
      (Config.opcodeRow t).mask.toNat % 0x1000 + 1 = 2 ^ k.val := by
  cases t <;> decide

theorem toNat_and_majorMask (w : Opcode) : (w &&& 0xF000#16).toNat = 2 ^ 12 * (w.toNat / 0x1000) := by
  have hshift : w &&& 0xF000#16 = w >>> 12 <<< 12 := by ext i hi; interval_cases i <;> simp
  rw [hshift, BitVec.toNat_shiftLeft, BitVec.toNat_ushiftRight, Nat.shiftRight_eq_div_pow, Nat.shiftLeft_eq]
  omega

theorem toNat_mod_two_pow_lt (k : Fin 13) (w : Opcode) : w.toNat % 2 ^ k.val < 2 ^ 12 :=
  (Nat.mod_lt _ (Nat.two_pow_pos _)).trans_le (Nat.pow_le_pow_right (by decide) (Nat.le_of_lt_succ k.isLt))

/-- What such a mask keeps of an opcode, as a number. -/
theorem toNat_and_mask (k : Fin 13) (w : Opcode) : (w &&& (0xF000#16 ||| BitVec.ofNat 16 (2 ^ k.val - 1))).toNat =
    2 ^ 12 * (w.toNat / 0x1000) + w.toNat % 2 ^ k.val := by
  have hk : 2 ^ k.val - 1 < 2 ^ 16 := by fin_cases k <;> decide
  rw [BitVec.and_or_distrib_left, BitVec.toNat_or, toNat_and_majorMask, BitVec.toNat_and, BitVec.toNat_ofNat,
    Nat.mod_eq_of_lt hk, Nat.and_two_pow_sub_one_eq_mod, Nat.two_pow_add_eq_or_of_lt (toNat_mod_two_pow_lt k w)]

/-- An opcode selects a row by its major opcode and its low bits, as many of them as the row's mask keeps. -/
theorem selects_iff_toNat (t : Tag) (w : Opcode) :
    (Config.opcodeRow t).selects w = true ↔
      w.toNat / 0x1000 = (Config.opcodeRow t).pattern.toNat / 0x1000 ∧
        w.toNat % ((Config.opcodeRow t).mask.toNat % 0x1000 + 1) =
          (Config.opcodeRow t).pattern.toNat % ((Config.opcodeRow t).mask.toNat % 0x1000 + 1) := by
  obtain ⟨k, hmask, hlow⟩ := Config.mask_shape t
  have hpattern := congrArg BitVec.toNat (Config.pattern_and_mask t)
  have hw := toNat_mod_two_pow_lt k w
  have hp := toNat_mod_two_pow_lt k (Config.opcodeRow t).pattern
  rw [hmask, toNat_and_mask] at hpattern
  rw [OpcodeRow.selects_iff, ← BitVec.toNat_inj, hlow, hmask, toNat_and_mask]
  omega

/-- Settles O4: for each major opcode, the low bits that its rows select. -/
theorem unrecognisedGroups : Obligations.UnrecognisedGroups := by
  intro w
  have hrows : decode w = .error (.unrecognised w) ↔ ∀ t ∈ Tag.all, ¬ (Config.opcodeRow t).selects w = true := by
    simp only [decode_unrecognised_iff, Tag.mem_all, forall_const, Bool.not_eq_true]
  have hmajor : w.toNat / 0x1000 < 16 := Nat.div_lt_of_lt_mul w.isLt
  simp only [hrows, Tag.all, List.forall_mem_cons, List.not_mem_nil, false_implies, implies_true, selects_iff_toNat]
  simp only [Config.opcodeRow, BitVec.reduceToNat, Nat.reduceMod, Nat.reduceAdd, Nat.reduceDiv]
  generalize hm : w.toNat / 0x1000 = m at *
  -- In each case `simp` drops the rows and the groups of every other major opcode.
  interval_cases m <;> simp <;> omega

/-! ## The word of an instruction as a number -/

/-- The pattern and the operands share no bit, so the word is their sum. -/
theorem toNat_encode (i : Instr) : (encode i).toNat = i.row.pattern.toNat + i.operandBits.toNat := by
  have hpattern : i.row.pattern &&& i.row.mask = i.row.pattern := Config.pattern_and_mask i.tag
  have hdisjoint : i.row.pattern &&& i.operandBits = 0#16 := by
    rw [← hpattern, BitVec.and_assoc, BitVec.and_comm i.row.mask, operandBits_and_mask]
    exact BitVec.and_zero
  rw [encode, ← BitVec.add_eq_or_of_and_eq_zero _ _ hdisjoint, BitVec.toNat_add_of_and_eq_zero hdisjoint]

/-- A field placed at bit `k`, where it fits, counts `2 ^ k` times its value. -/
theorem toNat_place {m : Nat} (b : BitVec m) {k : Nat} (h : m + k ≤ 16) : (place b k).toNat = b.toNat * 2 ^ k := by
  have hb : b.toNat < 2 ^ 16 := b.isLt.trans_le (Nat.pow_le_pow_right (by decide) (by omega))
  have hplaced : b.toNat * 2 ^ k < 2 ^ 16 :=
    calc b.toNat * 2 ^ k < 2 ^ m * 2 ^ k := Nat.mul_lt_mul_of_pos_right b.isLt (Nat.two_pow_pos k)
      _ = 2 ^ (m + k) := (Nat.pow_add ..).symm
      _ ≤ 2 ^ 16 := Nat.pow_le_pow_right (by decide) h
  rw [place, BitVec.toNat_shiftLeft, BitVec.toNat_setWidth, Nat.mod_eq_of_lt hb, Nat.shiftLeft_eq, Nat.mod_eq_of_lt hplaced]

theorem toNat_place_zero {m : Nat} (b : BitVec m) (h : m ≤ 16) : (place b 0).toNat = b.toNat := by
  rw [toNat_place b h, Nat.pow_zero, Nat.mul_one]

/-- A field below bit `k`, put beside bits that are all at or above bit `k`. -/
theorem toNat_or_low {a b : Opcode} {k q n : Nat} (ha : a.toNat = q * 2 ^ k) (hb : b.toNat = n) (hn : n < 2 ^ k) :
    (a ||| b).toNat = q * 2 ^ k + n := by
  rw [BitVec.toNat_or, ha, hb, Nat.mul_comm, Nat.two_pow_add_eq_or_of_lt hn]

theorem toNat_bitsNNN (nnn : Addr) : (bitsNNN nnn).toNat = nnn.toNat := toNat_place_zero nnn (by decide)

theorem toNat_bitsX (x : Reg) : (bitsX x).toNat = x.val * 0x100 := toNat_place (nibble x) (by decide)

theorem toNat_bitsXKK (x : Reg) (kk : Byte) : (bitsXKK x kk).toNat = x.val * 0x100 + kk.toNat :=
  toNat_or_low (k := 8) (toNat_bitsX x) (toNat_place_zero kk (by decide)) kk.isLt

theorem toNat_bitsXY (x y : Reg) : (bitsXY x y).toNat = x.val * 0x100 + y.val * 0x10 :=
  toNat_or_low (k := 8) (toNat_bitsX x) (toNat_place (nibble y) (k := 4) (by decide)) (by omega)

theorem toNat_bitsXYN (x y : Reg) (n : Fin 16) : (bitsXYN x y n).toNat = x.val * 0x100 + y.val * 0x10 + n.val := by
  have hxy : (bitsXY x y).toNat = (x.val * 0x10 + y.val) * 2 ^ 4 := by rw [toNat_bitsXY]; omega
  rw [bitsXYN, toNat_or_low hxy (toNat_place_zero (nibble n) (by decide)) n.isLt, ← hxy, toNat_bitsXY]
  rfl

section
variable {i : Instr} {x y n : Fin 16} {kk : Byte} {nnn : Addr}

theorem toNat_encode_nnn (h : i.operandBits = bitsNNN nnn) : (encode i).toNat = i.row.pattern.toNat + nnn.toNat := by
  rw [toNat_encode, h, toNat_bitsNNN]

theorem toNat_encode_x (h : i.operandBits = bitsX x) : (encode i).toNat = i.row.pattern.toNat + x.val * 0x100 := by
  rw [toNat_encode, h, toNat_bitsX]

theorem toNat_encode_xkk (h : i.operandBits = bitsXKK x kk) :
    (encode i).toNat = i.row.pattern.toNat + x.val * 0x100 + kk.toNat := by
  rw [toNat_encode, h, toNat_bitsXKK, Nat.add_assoc]

theorem toNat_encode_xy (h : i.operandBits = bitsXY x y) :
    (encode i).toNat = i.row.pattern.toNat + x.val * 0x100 + y.val * 0x10 := by
  rw [toNat_encode, h, toNat_bitsXY, Nat.add_assoc]

theorem toNat_encode_xyn (h : i.operandBits = bitsXYN x y n) :
    (encode i).toNat = i.row.pattern.toNat + x.val * 0x100 + y.val * 0x10 + n.val := by
  rw [toNat_encode, h, toNat_bitsXYN, ← Nat.add_assoc, ← Nat.add_assoc]

end

/-- Settles O5: each row by its format (R61). -/
theorem encodingPatterns : Obligations.EncodingPatterns := fun _ _ _ _ _ =>
  ⟨rfl, rfl, toNat_encode_nnn rfl, toNat_encode_nnn rfl, toNat_encode_xkk rfl, toNat_encode_xkk rfl, toNat_encode_xy rfl,
    toNat_encode_xkk rfl, toNat_encode_xkk rfl, toNat_encode_xy rfl, toNat_encode_xy rfl, toNat_encode_xy rfl,
    toNat_encode_xy rfl, toNat_encode_xy rfl, toNat_encode_xy rfl, toNat_encode_xy rfl, toNat_encode_xy rfl,
    toNat_encode_xy rfl, toNat_encode_xy rfl, toNat_encode_nnn rfl, toNat_encode_nnn rfl, toNat_encode_xkk rfl,
    toNat_encode_xyn rfl, toNat_encode_x rfl, toNat_encode_x rfl, toNat_encode_x rfl, toNat_encode_x rfl,
    toNat_encode_x rfl, toNat_encode_x rfl, toNat_encode_x rfl, toNat_encode_x rfl, toNat_encode_x rfl,
    toNat_encode_x rfl, toNat_encode_x rfl⟩

/-- Settles O6: each word is the encoding of its instruction, and 0x0000 selects no row. -/
theorem sampleWordsDecode : Obligations.SampleWordsDecode :=
  ⟨decode_encode (.jump 0x234), decode_encode (.draw 1 2 15), decode_encode (.subn 10 11), decode_encode (.shl 1 2),
    decode_encode (.waitKey 15), decode_encode (.loadRegs 1), decode_encode .ret, by decide⟩

end Sys2Proof

namespace Sys2Proof.Machine

/-- Settles O10: the tick is that of a handler that advances and writes nothing. -/
theorem unrecognisedIsNoOp : Obligations.UnrecognisedIsNoOp := by
  intro s w hf hw hx hd
  have hstep := step_unrecognised hf hw hx hd
  have hsame : ChangedOnly [] s.begin s.begin := rfl
  refine ⟨fun hroom => ?_, fun hroom => ?_⟩
  · rw [State.unrecognisedTick, runHandler_advance w hroom rfl rfl] at hstep
    exact ⟨_, hstep, advanced_of_pc hroom rfl, keptBut_commit hsame _ _, committed_commit hsame _ _⟩
  · have hpast : ¬ pcTarget s.begin.pc .advance < Config.ramSize := fun h => hroom (Nat.le_of_lt_succ h)
    rw [State.unrecognisedTick, runHandler_past rfl hpast] at hstep
    exact ⟨_, hstep, rfl⟩

end Sys2Proof.Machine
end

section
/-! SUPPORT. The tick of 40_execution_cycle.md, for the proofs of its family: a waiting tick with and without a key, what an
instruction does to the timers and to `changed`, and that the last result is not looked at. -/

namespace Sys2Proof.Machine

/-! ## Fetch and decode (R82, R87) -/

theorem State.fetch_of_last {s : State} (h : s.pc = 0xFFF) : s.fetch = none := if_pos h

/-- The decoder on two bytes decodes the opcode they make (R47). -/
theorem decode_of_decodeBytes {hi lo : Byte} {i : Instr} {rest : List Byte} (h : decodeBytes [hi, lo] = .ok (i, rest)) :
    decode (opcodeOf hi lo) = .ok i := by
  rw [decodeBytes] at h
  split at h <;> cases h
  assumption

/-- A waiting engine runs no instruction (R82). -/
theorem nextInstr_of_waiting {s : State} {r : Reg} (h : s.wait = .waitingForKey r) : s.nextInstr = none := by
  simp only [State.nextInstr, h, reduceCtorEq, and_false, ↓reduceIte]

/-! ## The waiting tick (R85) -/

theorem State.waitingTick_of_noKey {s : State} (r : Reg) (h : s.input.keypad = 0) :
    s.waitingTick r = s.begin.commit false :=
  congrArg (State.commit · false) (if_pos h)

theorem State.waitingTick_of_key {s : State} (r : Reg) (h : s.input.keypad ≠ 0) :
    s.waitingTick r =
      ({ s.begin.setReg r (BitVec.ofNat 8 (lowestKey s.input.keypad)) with wait := .running } : State).commit false :=
  congrArg (State.commit · false) (if_neg h)

/-- A waiting tick raises no fault (R85). -/
theorem State.waitingTick_fault (s : State) (r : Reg) : (s.waitingTick r).fault = s.fault := by
  obtain ⟨u, hu, -, heq⟩ := waitingTick_eq s r
  rw [heq]
  exact hu.fault

/-- A waiting tick steps both timers (R86; decision D9). -/
theorem State.waitingTick_timers (s : State) (r : Reg) :
    (s.waitingTick r).dt = timerStep s.dt ∧ (s.waitingTick r).st = timerStep s.st := by
  obtain ⟨u, hu, -, heq⟩ := waitingTick_eq s r
  rw [heq]
  exact ⟨hu.dt (by decide), hu.st (by decide)⟩

/-! ## The latch and the timers in a running tick (R86, R90, R175, R176) -/

theorem mem_writtenParts_delay {i : Instr} (h : Part.delay ∈ writtenParts i) : ∃ x, i = .setDelay x := by
  cases i with
  | setDelay x => exact ⟨x, rfl⟩
  | _ => simp [writtenParts] at h

theorem mem_writtenParts_sound {i : Instr} (h : Part.sound ∈ writtenParts i) : ∃ x, i = .setSound x := by
  cases i with
  | setSound x => exact ⟨x, rfl⟩
  | _ => simp [writtenParts] at h

section
variable {s u : State} (h : RanHandler s u)
include h

/-- A handler raises no latch: a fault is taken by the tick (R90). -/
theorem RanHandler.fault : u.fault = s.fault := by
  obtain ⟨parts, hparts, -⟩ := h.changedOnly
  exact hparts.fault

theorem RanHandler.dt_stepped (hno : ∀ x, s.nextInstr ≠ some (.setDelay x)) : u.dt = timerStep s.dt := by
  obtain ⟨parts, hparts, hran⟩ := h.changedOnly
  refine hparts.dt fun hp => ?_
  obtain ⟨i, hi, hp⟩ := hran .delay hp
  obtain ⟨x, rfl⟩ := mem_writtenParts_delay hp
  exact hno x hi

theorem RanHandler.st_stepped (hno : ∀ x, s.nextInstr ≠ some (.setSound x)) : u.st = timerStep s.st := by
  obtain ⟨parts, hparts, hran⟩ := h.changedOnly
  refine hparts.st fun hp => ?_
  obtain ⟨i, hi, hp⟩ := hran .sound hp
  obtain ⟨x, rfl⟩ := mem_writtenParts_sound hp
  exact hno x hi

theorem RanHandler.handled {i : Instr} (hi : s.nextInstr = some i) : ∃ r, handlerOf i s.begin = .ok r ∧ u = r.state := by
  obtain ⟨j, r, hj, hr, hu⟩ | ⟨hno, -⟩ := h
  · cases hi.symm.trans hj
    exact ⟨r, hr, hu⟩
  · cases hi.symm.trans hno

theorem RanHandler.dt_setDelay {x : Reg} (hx : s.nextInstr = some (.setDelay x)) : u.dt = s.reg x := by
  obtain ⟨r, hr, rfl⟩ := h.handled hx
  cases hr
  rfl

theorem RanHandler.st_setSound {x : Reg} (hx : s.nextInstr = some (.setSound x)) : u.st = s.reg x := by
  obtain ⟨r, hr, rfl⟩ := h.handled hx
  cases hr
  rfl

end

/-! ## The result of a tick (R91, R92) -/

/-- A tick that answers Ok raised no fault, and its output shows the state after it (R92, R93). -/
theorem step_ok {s t : State} {o : OutputState} (h : step s = .next t) (ho : t.out = some (.ok o)) :
    t.fault = none ∧ o = t.output o.changed := by
  rcases step_outcome h with ⟨r, -, rfl⟩ | ⟨r, hf, -, rfl⟩ | ⟨k, -, -, -, rfl⟩ | ⟨u, pc, c, hf, -, hu, rfl⟩
  · cases ho
  · cases ho
    exact ⟨(State.waitingTick_fault s r).trans hf, rfl⟩
  · cases ho
  · cases ho
    exact ⟨hu.fault.trans hf, rfl⟩

/-- `changed` is what the handler answered. -/
theorem runHandler_ok {w : Opcode} {s : State} {handler : State → Except FaultKind Handled} {o : OutputState}
    (ho : (runHandler w s handler).out = some (.ok o)) : ∃ r, handler s.begin = .ok r ∧ o.changed = r.changed := by
  rcases runHandler_outcome w s handler with ⟨k, -, ht⟩ | ⟨r, hr, ht⟩ <;> rw [ht] at ho <;> cases ho
  exact ⟨r, hr, rfl⟩

/-- The handlers of clear-screen and draw answer `changed`, the others do not (R91). -/
theorem handlerOf_changed {i : Instr} {s : State} {r : Handled} (h : handlerOf i s = .ok r) : r.changed = i.draws := by
  cases i with
  | ret | skipKeyPressed x | skipKeyNotPressed x | draw x y n | bcd x | storeRegs x | loadRegs x =>
    simp only [handlerOf] at h
    split at h <;> cases h
    rfl
  | call nnn =>
    simp only [handlerOf] at h
    split at h
    · cases h
    · split at h <;> cases h
      rfl
  | _ => cases h; rfl

/-- `changed` says whether the instruction that ran was clear-screen or draw (R91). -/
theorem step_changed {s t : State} {o : OutputState} (h : step s = .next t) (ho : t.out = some (.ok o)) :
    o.changed = s.nextInstr.any Instr.draws := by
  rcases step_cases h with ⟨r, -, rfl⟩ | ⟨r, -, hw, rfl⟩ | ⟨-, -, -, rfl⟩ | ⟨w, i, hf, hw, hx, hd, he⟩ |
    ⟨w, e, -, -, hx, hd, rfl⟩
  · cases ho
  · rw [nextInstr_of_waiting hw]
    cases ho
    rfl
  · cases ho
  · rw [exec_eq_runHandler] at he
    cases he
    obtain ⟨r, hr, hc⟩ := runHandler_ok ho
    rw [nextInstr_of_decode hf hw hx hd, hc]
    exact handlerOf_changed hr
  · obtain ⟨r, hr, hc⟩ := runHandler_ok ho
    cases hr
    rw [nextInstr_of_unrecognised hx hd, hc]
    rfl

/-! ## The last result is not looked at (R26, R91) -/

/-- Another last result. -/
def State.withOut (s : State) (out : Option TickResult) : State := { s with out := out }

section
variable (s : State) (out : Option TickResult)

theorem writeBytesFrom_withOut (k : Nat) (bytes : List Byte) :
    (s.withOut out).writeBytesFrom k bytes = (s.writeBytesFrom k bytes).withOut out := by
  induction bytes generalizing s k with
  | nil => rfl
  | cons b bytes ih => exact ih (s.memWrite (effAddr s.index k) b) (k + 1)

theorem setRegsFrom_withOut (k : Nat) (bytes : List Byte) :
    (s.withOut out).setRegsFrom k bytes = (s.setRegsFrom k bytes).withOut out := by
  induction bytes generalizing s k with
  | nil => rfl
  | cons b bytes ih =>
    simp only [State.setRegsFrom]
    split
    · exact ih (s.setReg _ b) (k + 1)
    · exact ih s (k + 1)

theorem blit_withOut (cx cy n : Nat) : blit (s.withOut out) cx cy n = blit s cx cy n := by
  induction n with
  | zero => rfl
  | succ n ih => rw [blit, ih]; rfl


theorem pop_withOut : (s.withOut out).pop = s.pop.map fun p => (p.1, p.2.withOut out) := by
  cases h : s.sp.val with
  | zero => rw [State.pop_empty h, State.pop_empty (s := s.withOut out) h]; rfl
  | succ k =>
    have hk : k < Config.stackDepth := Nat.lt_of_succ_lt_succ (h.symm.trans_lt s.sp.isLt)
    rw [State.pop_ok h hk, State.pop_ok (s := s.withOut out) h hk]
    rfl

theorem push_withOut (a : Addr) : (s.withOut out).push a = (s.push a).map (·.withOut out) := by
  by_cases h : s.sp.val < Config.stackDepth
  · rw [State.push_ok h, State.push_ok (s := s.withOut out) h]; rfl
  · rw [State.push_full h, State.push_full (s := s.withOut out) h]; rfl

/-- A handler's answer, with another last result. -/
def Handled.withOut (out : Option TickResult) (r : Handled) : Handled := { r with state := r.state.withOut out }

/-- Every handler answers with another last result what it answers with this one. -/
theorem handlerOf_withOut (i : Instr) : handlerOf i (s.withOut out) = (handlerOf i s).map (·.withOut out) := by
  cases i with
  | ret =>
    simp only [handlerOf, pop_withOut]
    cases s.pop <;> rfl
  | call nnn =>
    have hpc : (s.withOut out).pc = s.pc := rfl
    simp only [handlerOf, hpc, push_withOut]
    cases s.push (BitVec.ofNat 12 (s.pc.toNat + Config.instrWidth)) with
    | error k => rfl
    | ok u =>
      simp only [Except.map]
      split <;> rfl
  | draw x y n =>
    simp only [handlerOf, blit_withOut]
    rw [apply_ite (Except.map _)]
    rfl
  | skipKeyPressed x | skipKeyNotPressed x =>
    have hkey : (s.withOut out).keyPressed x = s.keyPressed x := rfl
    simp only [handlerOf, hkey]
    cases s.keyPressed x <;> rfl
  | bcd x | storeRegs x =>
    simp only [handlerOf, State.writeBytes, writeBytesFrom_withOut]
    rw [apply_ite (Except.map _)]
    rfl
  | loadRegs x =>
    simp only [handlerOf, setRegsFrom_withOut]
    rw [apply_ite (Except.map _)]
    rfl
  | _ => rfl

theorem answersAgree_withOut (i : Instr) :
    AnswersAgree (fun u u' => u' = u.withOut out) (handlerOf i s) (handlerOf i (s.withOut out)) := by
  rw [handlerOf_withOut]
  cases handlerOf i s with
  | error k => exact rfl
  | ok r => exact ⟨rfl, rfl, rfl, rfl⟩

/-- The end of a waiting tick overwrites the last result. -/
theorem waitingTick_withOut (r : Reg) : (s.withOut out).waitingTick r = s.waitingTick r := by
  by_cases h : s.input.keypad = 0
  · rw [State.waitingTick_of_noKey r h, State.waitingTick_of_noKey (s := s.withOut out) r h]
    rfl
  · rw [State.waitingTick_of_key r h, State.waitingTick_of_key (s := s.withOut out) r h]
    rfl

/-- A tick overwrites the last result and does not look at it. -/
theorem step_withOut : step (s.withOut out) = step s := by
  obtain ⟨t, ht⟩ := step_answers s
  obtain ⟨t', ht'⟩ := step_answers (s.withOut out)
  have hrel : t' = t := step_related (Q := fun u u' => u' = u.withOut out) (R := fun t t' => t' = t) ht ht' rfl rfl rfl rfl
    (halted := fun _ _ => rfl)
    (waiting := waitingTick_withOut s out)
    (fault := fun _ _ => rfl)
    (begin := rfl)
    (handled := fun i _ => answersAgree_withOut s.begin out i)
    (commit := fun u u' pc c hu => by rw [hu]; rfl)
  rw [ht, ht', hrel]

end

end Sys2Proof.Machine
end

section
/-! PROOFS. The tick (O9, O11, O12, O13, O15, O16), its result (O17, O18), its timers (O21), its faults (O26), and the host's
load between ticks (O30). -/

namespace Sys2Proof.Machine

/-! ## The result of a tick -/

/-- Settles O17: `changed` comes from the handler that ran, and a tick's end overwrites the last result. -/
theorem changedExactlyWhenDrawing : Obligations.ChangedExactlyWhenDrawing := by
  refine ⟨fun s t h => ⟨fun o ho => ?_, fun hf o ho => hf (step_ok h ho).1⟩, step_withOut⟩
  rw [step_changed h ho, Option.any_eq_true]

/-- In a tick that answers Ok, `beep` shows the sound timer after the tick (R92). -/
theorem step_beep {s t : State} {o : OutputState} (h : step s = .next t) (ho : t.out = some (.ok o)) :
    o.beep = true ↔ 0 < t.st.toNat := by
  rw [(step_ok h ho).2]
  exact decide_eq_true_iff

/-! ## The timers -/

/-- Settles O21: a tick that commits is a waiting one or ran a handler on the stepped timers. -/
theorem timersStepEveryTick : Obligations.TimersStepEveryTick := by
  intro s t h ht
  rcases step_outcome h with ⟨r, hf, rfl⟩ | ⟨r, -, hw, rfl⟩ | ⟨k, -, -, -, rfl⟩ | ⟨u, pc, c, -, -, hu, rfl⟩
  · rw [State.haltedTick_fault, hf] at ht
    cases ht
  · obtain ⟨hdt, hst⟩ := State.waitingTick_timers s r
    rw [hdt, hst, nextInstr_of_waiting hw]
    exact ⟨fun _ => timerStep_toNat s.dt, fun _ => timerStep_toNat s.st, nofun, nofun⟩
  · cases ht
  · rw [State.commit_dt, State.commit_st]
    refine ⟨fun hno => ?_, fun hno => ?_, fun x hx => hu.dt_setDelay hx, fun x hx => hu.st_setSound hx⟩
    · rw [hu.dt_stepped hno, timerStep_toNat]
    · rw [hu.st_stepped hno, timerStep_toNat]

/-- Settles O18: the output shows the state after the tick, whose `ST` is the written or the stepped one. -/
theorem outputIsTheStateAfterTheTick : Obligations.OutputIsTheStateAfterTheTick := by
  refine ⟨fun s t o h ho => ⟨?_, step_beep h ho⟩, fun s t o x hx h ho => ?_, fun s t o _ hone hno h ho => ?_⟩
  · rw [(step_ok h ho).2]
    rfl
  · obtain ⟨-, -, -, hset⟩ := timersStepEveryTick s t h (step_ok h ho).1
    rw [step_beep h ho, hset x hx]
    exact ⟨rfl, BitVec.pos_iff_ne_zero (s.reg x)⟩
  · obtain ⟨-, hstep, -, -⟩ := timersStepEveryTick s t h (step_ok h ho).1
    have hzero : t.st.toNat = 0 := by rw [hstep hno, hone]; rfl
    rw [← Bool.not_eq_true, step_beep h ho, hzero]
    exact lt_irrefl 0

/-! ## Faults -/

/-- Settles O26: only a running tick faults, and it takes its fault from the state at entry. -/
theorem faultCommitsNothing : Obligations.FaultCommitsNothing := by
  intro s t hf h ht
  rcases step_outcome h with ⟨r, hr, -⟩ | ⟨r, -, -, rfl⟩ | ⟨k, -, -, hk, rfl⟩ | ⟨u, pc, c, -, -, hu, rfl⟩
  · rw [hf] at hr
    cases hr
  · exact absurd ((State.waitingTick_fault s r).trans hf) ht
  · exact ⟨k, rfl, hk⟩
  · exact absurd (hu.fault.trans hf) ht

/-- Settles O11: nothing can be fetched at `0xFFF`, and the fault is taken from the state at entry. -/
theorem fetchAtLastByteFaults : Obligations.FetchAtLastByteFaults := fun _ hf hw hpc =>
  ⟨_, step_noFetch hf hw (State.fetch_of_last hpc), rfl⟩

/-! ## Running, halted and waiting ticks -/

/-- Settles O9: the two bytes at `PC` are the opcode fetched. -/
theorem stepRunsDecodedInstruction : Obligations.StepRunsDecodedInstruction := fun _ _ _ hf hw hpc _ hd =>
  step_instr hf hw (State.fetch_of_lt hpc) (decode_of_decodeBytes hd)

/-- Settles O12: each of the five things a tick can be has a next state. -/
theorem everyTickAnswers : Obligations.EveryTickAnswers := step_answers

theorem State.load_fault (s : State) (bytes : List Byte) : (s.load bytes).fault = s.fault :=
  (congrArg State.fault (State.loadFrom_frame s 0 bytes)).trans rfl

/-- Settles O13: a halted tick only ends, load writes only RAM, and reset empties the latch. -/
theorem haltedTickChangesNothing : Obligations.HaltedTickChangesNothing := fun s _ hr =>
  ⟨⟨_, step_halted hr, rfl⟩, fun bytes => (State.load_fault s bytes).trans hr, rfl⟩

/-- Settles O15: with no key the tentative state is committed as it is. -/
theorem waitingTickWithNoKey : Obligations.WaitingTickWithNoKey := by
  intro s r hf hw hkey
  have hframe : ChangedOnly [] s.begin s.begin := rfl
  exact ⟨_, (step_waiting hf hw).trans (congrArg _ (State.waitingTick_of_noKey r hkey)), rfl,
    keptBut_commit hframe _ _, committed_commit hframe _ _⟩

/-- Settles O16: the captured key is the least bit set in the mask, and it fits in a register. -/
theorem waitingTickCapturesLeastKey : Obligations.WaitingTickCapturesLeastKey := by
  intro s r hf hw hkey
  obtain ⟨hlt, hset, hleast⟩ := lowestKey_spec s.input.keypad hkey
  have hfits : (BitVec.ofNat 8 (lowestKey s.input.keypad)).toNat = lowestKey s.input.keypad :=
    Nat.mod_eq_of_lt (by omega)
  have hreg (q : Reg) := State.reg_setReg s.begin r q (BitVec.ofNat 8 (lowestKey s.input.keypad))
  have hframe : ChangedOnly [.regs, .wait] s.begin
      { s.begin.setReg r (BitVec.ofNat 8 (lowestKey s.input.keypad)) with wait := .running } := rfl
  refine ⟨_, (step_waiting hf hw).trans (congrArg _ (State.waitingTick_of_key r hkey)), rfl, rfl,
    ⟨lowestKey s.input.keypad, hlt, hset, hleast, ?_⟩, fun q hq => (hreg q).trans (if_neg hq),
    keptBut_commit hframe _ _, committed_commit hframe _ _⟩
  exact (congrArg BitVec.toNat ((hreg r).trans (if_pos rfl))).trans hfits

/-! ## The host's load (R81) -/

/-- Settles O30: what an address reads as after load, and load writes RAM alone. -/
theorem loadWritesProgramOnly : Obligations.LoadWritesProgramOnly := by
  refine fun s bytes => ⟨fun a => ?_, ?_⟩
  · rw [State.load, State.memRead_loadFrom]
    exact if_congr (by omega) rfl rfl
  · rw [State.load, State.loadFrom_frame]

end Sys2Proof.Machine
end

section
/-! SUPPORT. How a tick commits what its handler answered, where its PC action fits and where it does not (40_execution_cycle.md
R88 to R90), and what the handlers of return, call and the skips answer (41_control_transfer.md R101, R103, R105 to R108). -/

namespace Sys2Proof.Machine

/-! ## A tick by its handler's answer -/

/-- The tick from `s` to `t` committed the handler's answer `r`, which touched the named pieces alone. -/
structure CommittedAs (parts : List Part) (r : Handled) (s t : State) : Prop where
  pc : t.pc.toNat = pcTarget s.pc r.act
  sp : t.sp = r.state.sp
  stack : t.stack = r.state.stack
  kept : KeptBut parts s t
  committed : Committed s t r.changed

/-- A jump's target is an address, so `PC` is that address and not only its number. -/
theorem CommittedAs.pc_of_jump {parts : List Part} {u s t : State} {a : Addr} {c : Bool}
    (h : CommittedAs parts ⟨u, .jump a.toNat, c⟩ s t) : t.pc = a := BitVec.eq_of_toNat_eq h.pc

section
variable {parts : List Part} {i : Instr} {s t : State} {r : Handled}

theorem committedAs_commit (hframe : ChangedOnly parts s.begin r.state) (hfit : pcTarget s.pc r.act < Config.ramSize) :
    CommittedAs parts r s
      (({ r.state with pc := BitVec.ofNat 12 (pcTarget r.state.pc r.act) } : State).commit r.changed) where
  pc := by
    rw [hframe.pc, State.begin_pc, State.commit_pc, BitVec.toNat_ofNat]
    exact Nat.mod_eq_of_lt hfit
  sp := rfl
  stack := rfl
  kept := keptBut_commit hframe _ _
  committed := committed_commit hframe _ _

/-- An instruction whose handler answers, with a PC action that fits, commits that answer (R90). -/
theorem exec_commits (h : handlerOf i s.begin = .ok r) (hframe : ChangedOnly parts s.begin r.state)
    (hfit : pcTarget s.pc r.act < Config.ramSize) : ∃ t, exec i s = .next t ∧ CommittedAs parts r s t := by
  have hfit' : pcTarget r.state.pc r.act < Config.ramSize := by rwa [hframe.pc]
  exact ⟨_, (exec_eq_runHandler i s).trans (congrArg _ (runHandler_commit h hfit')), committedAs_commit hframe hfit⟩

/-- An instruction whose handler answers a PC action that does not fit faults, from the state at entry (R89, R192). -/
theorem exec_pastRam (h : handlerOf i s.begin = .ok r) (hpast : ¬ pcTarget s.pc r.act < Config.ramSize) :
    ∃ t, exec i s = .next t ∧ FaultTaken s t .pcOutOfRange (encode i) := by
  have hpast' : ¬ pcTarget r.state.pc r.act < Config.ramSize := by rwa [(handlerOf_changedOnly h).pc]
  exact ⟨_, (exec_eq_runHandler i s).trans (congrArg _ (runHandler_past h hpast')), rfl⟩

/-- A tick after which the latch is empty committed what its handler answered. -/
theorem committedAs_of_exec (h : exec i s = .next t) (ht : t.fault = none) :
    ∃ r, handlerOf i s.begin = .ok r ∧ CommittedAs (writtenParts i) r s t := by
  rw [exec_eq_runHandler, Host.Outcome.next.injEq] at h
  rcases runHandler_cases (encode i) s (handlerOf i) with ⟨k, hk⟩ | ⟨r, hr, hfit, hc⟩
  · rw [← h, hk, State.takeFault_fault] at ht
    cases ht
  · have hframe := handlerOf_changedOnly hr
    rw [hframe.pc] at hfit
    exact ⟨r, hr, h ▸ hc ▸ committedAs_commit hframe hfit⟩

end

/-! ## return (R101) -/

theorem handlerOf_ret_empty {s : State} (h : s.sp.val = 0) : handlerOf .ret s = .error .stackUnderflow := by
  simp only [handlerOf, State.pop_empty h]

theorem handlerOf_ret_pops {s : State} {k : Nat} (h : s.sp.val = k + 1) (hk : k < Config.stackDepth) :
    handlerOf .ret s = jumpTo s.stack[k].toNat { s with sp := ⟨k, Nat.lt_succ_of_lt hk⟩ } := by
  simp only [handlerOf, State.pop_ok h hk]

/-! ## call (R103) -/

/-- The state with the address of the next instruction pushed. -/
def State.pushNext (s : State) (h : s.sp.val < Config.stackDepth) : State :=
  { s with stack := s.stack.set s.sp.val (BitVec.ofNat 12 (s.pc.toNat + 2)) h, sp := ⟨s.sp.val + 1, Nat.succ_lt_succ h⟩ }

section
variable {s : State} (h : s.sp.val < Config.stackDepth)

theorem State.pushNext_frame : ChangedOnly [.stack] s (s.pushNext h) := rfl

theorem State.pushNext_top (hroom : CanAdvance s) : ((s.pushNext h).stack[s.sp.val]).toNat = s.pc.toNat + 2 := by
  have hget : (s.pushNext h).stack[s.sp.val] = BitVec.ofNat 12 (s.pc.toNat + 2) := Vector.getElem_set_self ..
  rw [hget, BitVec.toNat_ofNat]
  exact Nat.mod_eq_of_lt (by omega)

theorem State.pushNext_below {j : Nat} (hj : j < Config.stackDepth) (hne : s.sp.val ≠ j) :
    (s.pushNext h).stack[j] = s.stack[j] := Vector.getElem_set_ne h hj hne

theorem handlerOf_call_full (nnn : Addr) (hfull : ¬ s.sp.val < Config.stackDepth) :
    handlerOf (.call nnn) s = .error .stackOverflow := by
  simp only [handlerOf, State.push_full hfull]

include h

theorem handlerOf_call_noRoom (nnn : Addr) (hroom : ¬ CanAdvance s) :
    handlerOf (.call nnn) s = .error .pcOutOfRange := by
  have hpast : ¬ s.pc.toNat + Config.instrWidth < Config.ramSize := fun hlt => hroom (Nat.le_of_lt_succ hlt)
  simp only [handlerOf, State.push_ok h, if_neg hpast]

theorem handlerOf_call_pushes (nnn : Addr) (hroom : CanAdvance s) :
    handlerOf (.call nnn) s = jumpTo nnn.toNat (s.pushNext h) := by
  have hfit : s.pc.toNat + Config.instrWidth < Config.ramSize := Nat.lt_succ_of_le hroom
  simp only [handlerOf, State.push_ok h, if_pos hfit]
  rfl

end

/-- The handler of call answers only with an entry and an address left, and then it has pushed. -/
theorem handlerOf_call_ok {nnn : Addr} {s : State} {r : Handled} (h : handlerOf (.call nnn) s = .ok r) :
    CanAdvance s ∧ ∃ hsp : s.sp.val < Config.stackDepth, r = ⟨s.pushNext hsp, .jump nnn.toNat, false⟩ := by
  by_cases hsp : s.sp.val < Config.stackDepth
  · by_cases hroom : CanAdvance s
    · rw [handlerOf_call_pushes hsp nnn hroom] at h
      cases h
      exact ⟨hroom, hsp, rfl⟩
    · rw [handlerOf_call_noRoom hsp nnn hroom] at h
      cases h
  · rw [handlerOf_call_full nnn hsp] at h
    cases h

/-! ## The skips (R14, R105 to R108) -/

section
variable {i : Instr} {s : State} {cond : Prop} [Decidable cond]

theorem CommittedAs.skipsIf {u t : State}
    (h : CommittedAs [] ⟨u, if decide cond then .skip else .advance, false⟩ s t) : SkipsIf cond s t := by
  refine ⟨fun hc => ?_, fun hc => ?_, h.kept, h.committed⟩
  · rw [h.pc, decide_eq_true hc, if_pos rfl, pcTarget_skip]
  · rw [h.pc, decide_eq_false hc, if_neg Bool.false_ne_true, pcTarget_advance]

variable (h : handlerOf i s.begin = skipIf (decide cond) s.begin)
include h

/-- A skip completes with room to skip, and with room to advance where its condition fails. -/
theorem exec_skipsIf (hroom : CanSkip s ∨ (CanAdvance s ∧ ¬ cond)) : ∃ t, exec i s = .next t ∧ SkipsIf cond s t := by
  have hfit : pcTarget s.pc (if decide cond then .skip else .advance) < Config.ramSize := by
    by_cases hc : cond
    · have hskip : CanSkip s := hroom.resolve_right fun hadv => hadv.2 hc
      rw [decide_eq_true hc, if_pos rfl, pcTarget_skip]
      exact Nat.lt_succ_of_le hskip
    · have hadv : CanAdvance s := hroom.elim (fun hskip => by omega) And.left
      rw [decide_eq_false hc, if_neg Bool.false_ne_true, pcTarget_advance]
      exact Nat.lt_succ_of_le hadv
  obtain ⟨t, ht, hcom⟩ := exec_commits (parts := []) h rfl hfit
  exact ⟨t, ht, hcom.skipsIf⟩

/-- A skip taken past the end of RAM faults. -/
theorem exec_skip_pastRam (hroom : ¬ CanSkip s) (hc : cond) :
    ∃ t, exec i s = .next t ∧ FaultTaken s t .pcOutOfRange (encode i) := by
  refine exec_pastRam h ?_
  rw [decide_eq_true hc, if_pos rfl, pcTarget_skip]
  exact fun hlt => hroom (Nat.le_of_lt_succ hlt)

end

end Sys2Proof.Machine
end

section
/-! PROOFS. Control transfer (41_control_transfer.md): the common frame (O33), return (O34), jump (O35), call (O36), the round
trip of call and return (O37), jump-v0 (O38) and the skips on registers (O39). -/

namespace Sys2Proof.Machine

/-! ## The stack -/

/-- Settles O34: return jumps to the entry below `SP`, an address, so the PC action fits. -/
theorem returnPops : Obligations.ReturnPops := by
  refine fun s => ⟨fun k hk => ?_, fun h0 => exec_faultTaken (handlerOf_ret_empty h0)⟩
  obtain ⟨t, ht, hc⟩ := exec_commits (parts := [.stack]) (handlerOf_ret_pops (s := s.begin) hk k.isLt) rfl
    (s.stack[k.val]).isLt
  exact ⟨t, ht, hc.pc_of_jump, congrArg Fin.val hc.sp, hc.stack, hc.kept, hc.committed⟩

/-- Settles O36: a full stack is tested first, then the room for the return address; `nnn` itself always fits. -/
theorem callPushes : Obligations.CallPushes := by
  refine fun nnn s => ⟨fun k hk hroom => ?_, fun hfull => ?_, fun hlt hroom => ?_⟩
  · obtain ⟨k, hkd⟩ := k
    obtain rfl : s.sp.val = k := hk
    obtain ⟨t, ht, hc⟩ := exec_commits (handlerOf_call_pushes (s := s.begin) hkd nnn hroom)
      (State.pushNext_frame (s := s.begin) hkd) nnn.isLt
    refine ⟨t, ht, hc.pc_of_jump, congrArg Fin.val hc.sp, ?_, fun j hj => ?_, hc.kept, hc.committed⟩
    · simp only [hc.stack]
      exact State.pushNext_top (s := s.begin) hkd hroom
    · simp only [hc.stack]
      exact State.pushNext_below (s := s.begin) hkd j.isLt fun e => hj (Fin.ext e.symm)
  · exact exec_faultTaken (handlerOf_call_full (s := s.begin) nnn (Nat.not_lt.mpr (Nat.le_of_eq hfull.symm)))
  · exact exec_faultTaken (handlerOf_call_noRoom (s := s.begin) hlt nnn hroom)

/-- Settles O37: the entry that call wrote at the old `SP` is the one that return pops. -/
theorem callReturnRoundTrip : Obligations.CallReturnRoundTrip := by
  intro nnn s t u _ h ht hsp hstack
  obtain ⟨r, hr, hcall⟩ := committedAs_of_exec h ht
  obtain ⟨hroom, hlt, rfl⟩ := handlerOf_call_ok hr
  have husp : u.sp.val = s.sp.val + 1 := congrArg Fin.val (hsp.trans hcall.sp)
  have htop : (u.stack[s.sp.val]).toNat = s.pc.toNat + 2 := by
    simp only [hstack, hcall.stack]
    exact State.pushNext_top (s := s.begin) hlt hroom
  obtain ⟨v, hv, hpc, hvsp, -, -, hcom⟩ := (returnPops u).1 ⟨s.sp.val, hlt⟩ husp
  exact ⟨v, hv, (congrArg BitVec.toNat hpc).trans htop, Fin.ext hvsp, hcom.fault⟩

/-! ## The jumps -/

/-- Settles O35: `nnn` is an address, so the PC action fits. -/
theorem jumpGoesToTarget : Obligations.JumpGoesToTarget := by
  intro nnn s
  obtain ⟨t, ht, hc⟩ := exec_commits (i := .jump nnn) (parts := []) rfl rfl nnn.isLt
  exact ⟨t, ht, hc.pc_of_jump, hc.kept, hc.committed⟩

/-- Settles O38: the target is the unwrapped sum, and the PC action compares it with the end of RAM. -/
theorem jumpV0AddsV0 : Obligations.JumpV0AddsV0 := by
  refine fun nnn s => ⟨fun hle => ?_, fun hgt => ?_⟩
  · obtain ⟨t, ht, hc⟩ := exec_commits (i := .jumpV0 nnn) (parts := []) rfl rfl (Nat.lt_succ_of_le hle)
    exact ⟨t, ht, hc.pc, hc.kept, hc.committed⟩
  · exact exec_pastRam (i := .jumpV0 nnn) rfl (Nat.not_lt.mpr hgt)

/-! ## The skips -/

/-- Settles O39: the handlers of all four answer skip or advance by their condition. -/
theorem skipsOnRegisters : Obligations.SkipsOnRegisters := fun x y kk _ =>
  ⟨exec_skipsIf (i := .skipEqImm x kk) rfl,
    fun h => exec_skipsIf (i := .skipNeqImm x kk) rfl (h.imp_right (And.imp_right not_not_intro)),
    exec_skipsIf (i := .skipEqReg x y) rfl,
    fun h => exec_skipsIf (i := .skipNeqReg x y) rfl (h.imp_right (And.imp_right not_not_intro)),
    exec_skip_pastRam (i := .skipEqImm x kk) rfl,
    exec_skip_pastRam (i := .skipNeqImm x kk) rfl,
    exec_skip_pastRam (i := .skipEqReg x y) rfl,
    exec_skip_pastRam (i := .skipNeqReg x y) rfl⟩

/-! ## All eight -/

/-- Settles O33: where the tick commits, the handler's answer gives the target, the stack and the frame. -/
theorem controlTransferCommon : Obligations.ControlTransferCommon := by
  intro i s t h ht _
  obtain ⟨r, hr, hc⟩ := committedAs_of_exec h ht
  refine ⟨?_, ?_, ?_, ?_, ?_, ?_, ?_, ?_⟩
  · rintro nnn rfl
    cases hr
    exact ⟨hc.kept, hc.committed, hc.pc_of_jump⟩
  · rintro nnn rfl
    cases hr
    exact ⟨hc.kept, hc.committed, hc.pc⟩
  · rintro nnn rfl
    obtain ⟨hroom, hlt, rfl⟩ := handlerOf_call_ok hr
    refine ⟨hc.kept, hc.committed, hc.pc_of_jump, fun k => ?_⟩
    simp only [hc.stack]
    split
    · next hk =>
      simp only [hk]
      exact State.pushNext_top (s := s.begin) hlt hroom
    · next hk => exact congrArg BitVec.toNat (State.pushNext_below (s := s.begin) hlt k.isLt (Ne.symm hk))
  · rintro rfl
    have hchanged : r.changed = false := handlerOf_changed hr
    refine ⟨hc.kept, hchanged ▸ hc.committed, fun k hk => ?_⟩
    rw [handlerOf_ret_pops (s := s.begin) hk.symm k.isLt] at hr
    cases hr
    exact hc.pc_of_jump
  · rintro x kk rfl
    cases hr
    simp only [BitVec.toNat_inj]
    exact hc.skipsIf
  · rintro x kk rfl
    cases hr
    simp only [ne_eq, BitVec.toNat_inj]
    exact hc.skipsIf
  · rintro x y rfl
    cases hr
    simp only [BitVec.toNat_inj]
    exact hc.skipsIf
  · rintro x y rfl
    cases hr
    simp only [ne_eq, BitVec.toNat_inj]
    exact hc.skipsIf

end Sys2Proof.Machine
end

section
/-! PROOFS. The registers and the ALU (42_alu.md): loads and add-imm (O40), the logic instructions (O41), the arithmetic laws
(O42) and rand (O44). The order of result and flag (O43) is settled above. -/

namespace Sys2Proof.Machine

/-! ## The instructions that write `V[x]` alone (R121 to R126, R132) -/

theorem OnlyReg.committed {x : Reg} {s t : State} (h : OnlyReg x s t) : Committed s t false := by
  obtain ⟨-, -, -, hcommitted⟩ := h
  exact hcommitted

/-- An instruction whose handler writes `V[x]` and advances. -/
theorem exec_onlyReg {i : Instr} {s : State} {x : Reg} {b : Byte} (hroom : CanAdvance s)
    (h : handlerOf i s.begin = advance (s.begin.setReg x b)) : ∃ t, exec i s = .next t ∧ t.reg x = b ∧ OnlyReg x s t := by
  have hframe : ChangedOnly [.regs] s.begin (s.begin.setReg x b) := rfl
  have hreg (r : Reg) := State.reg_setReg s.begin x r b
  refine ⟨_, (exec_eq_runHandler i s).trans (congrArg _ (runHandler_advance _ hroom h rfl)), (hreg x).trans (if_pos rfl),
    fun r hr => (hreg r).trans (if_neg hr), advanced_of_pc hroom rfl, keptBut_commit hframe _ _, committed_commit hframe _ _⟩

/-- Settles O40: each handler writes its value to `V[x]` alone. -/
theorem loadsAndAddImm : Obligations.LoadsAndAddImm := by
  intro x y kk s hroom
  refine ⟨exec_onlyReg hroom rfl, ?_, exec_onlyReg hroom rfl⟩
  obtain ⟨t, ht, hx, honly⟩ := exec_onlyReg (i := .addImm x kk) (b := s.reg x + kk) hroom rfl
  exact ⟨t, ht, (congrArg BitVec.toNat hx).trans (BitVec.toNat_add ..), honly⟩

/-- Settles O41: each handler writes the bitwise operation's value to `V[x]` alone. -/
theorem logicOnAllBits : Obligations.LogicOnAllBits := by
  intro x y s hroom
  obtain ⟨t, ht, htx, htonly⟩ := exec_onlyReg (i := .orReg x y) (b := s.reg x ||| s.reg y) hroom rfl
  obtain ⟨u, hu, hux, huonly⟩ := exec_onlyReg (i := .andReg x y) (b := s.reg x &&& s.reg y) hroom rfl
  obtain ⟨v, hv, hvx, hvonly⟩ := exec_onlyReg (i := .xorReg x y) (b := s.reg x ^^^ s.reg y) hroom rfl
  exact ⟨⟨t, ht, fun k => by rw [htx, BitVec.getLsbD_or], htonly⟩,
    ⟨u, hu, fun k => by rw [hux, BitVec.getLsbD_and], huonly⟩,
    ⟨v, hv, fun k => by rw [hvx, BitVec.getLsbD_xor], hvonly⟩⟩

/-- Settles O44: the handler writes `rnd` masked by `kk` to `V[x]` alone. -/
theorem randMasksTheInput : Obligations.RandMasksTheInput := by
  intro x kk s hroom
  obtain ⟨t, ht, hx, honly⟩ := exec_onlyReg (i := .rand x kk) (b := s.input.rnd &&& kk) hroom rfl
  refine ⟨t, ht, fun k => ?_, fun hzero => ?_, fun hones => ?_, honly⟩
  · rw [hx, BitVec.getLsbD_and]
  · rw [hx, hzero]
    exact BitVec.and_zero
  · rw [hx, hones]
    exact BitVec.and_allOnes

/-! ## The instructions that write `V[x]`, then the flag (R127 to R131) -/

/-- An instruction whose handler writes `V[x]`, then the flag, and advances: the result stands where `V[x]` is not the flag. -/
theorem exec_resultAndFlag {i : Instr} {s : State} {x : Reg} {result : Byte} {flag : Bool} (hroom : CanAdvance s)
    (h : handlerOf i s.begin = advance (s.begin.setWithFlag x result flag)) :
    ∃ t, exec i s = .next t ∧ Committed s t false ∧ (x ≠ VF → t.reg x = result) ∧ (t.reg VF).toNat = flag.toNat := by
  obtain ⟨hflag, -, -, -, hcommitted⟩ := regAndFlag_flagTick x result flag hroom
  refine ⟨_, exec_flagTick hroom h, hcommitted, fun hx => ?_, ?_⟩
  · exact ((State.reg_setWithFlag s.begin x x result flag).trans (if_neg hx)).trans (if_pos rfl)
  · rw [hflag]
    cases flag <;> rfl

/-- The difference of two bytes, in the form of R133. -/
theorem toNat_sub_byte (a b : Byte) : (a - b).toNat = (a.toNat + 256 - b.toNat) % 256 := by
  have hb := b.isLt
  rw [BitVec.toNat_sub]
  omega

/-- Subtraction (R129, R131, R133), whichever operand is the minuend. -/
theorem exec_subtracts {i : Instr} {s : State} {x : Reg} {a b : Byte} (hroom : CanAdvance s)
    (h : handlerOf i s.begin = advance (s.begin.setWithFlag x (a - b) (noBorrow a b))) :
    ∃ t, exec i s = .next t ∧ Committed s t false ∧
      (x ≠ VF → (t.reg x).toNat = (a.toNat + 256 - b.toNat) % 256 ∧ (a = b → (t.reg x).toNat = 0)) ∧
      (t.reg VF).toNat = if a.toNat ≥ b.toNat then 1 else 0 := by
  obtain ⟨t, ht, hcommitted, hresult, hflag⟩ := exec_resultAndFlag hroom h
  refine ⟨t, ht, hcommitted, fun hx => ⟨?_, fun hab => ?_⟩, hflag.trans (Bool.cond_decide ..)⟩
  · rw [hresult hx, toNat_sub_byte]
  · rw [hresult hx, hab, BitVec.sub_self]
    rfl

/-- A right shift by one place halves, and bit 7 is clear: it is logical (R128, R133). -/
theorem ushiftRight_one (a : Byte) : (a >>> 1).toNat = a.toNat / 2 ∧ (a >>> 1).getLsbD 7 = false :=
  ⟨rfl, (BitVec.getLsbD_ushiftRight ..).trans (BitVec.getLsbD_of_ge _ _ (by decide))⟩

/-- A left shift by one place doubles modulo 256, and bit 0 is clear (R130, R133). -/
theorem shiftLeft_one (a : Byte) : (a <<< 1).toNat = a.toNat * 2 % 256 ∧ (a <<< 1).getLsbD 0 = false := by
  constructor
  · rw [BitVec.toNat_shiftLeft, Nat.shiftLeft_eq]
  · rw [BitVec.getLsbD_shiftLeft]
    rfl

/-- Settles O42: the handlers write the sum, the differences and the shifts with their flag, and the bitwise operations
are those of O41. -/
theorem arithmeticLaws : Obligations.ArithmeticLaws := by
  intro x y s hroom
  obtain ⟨⟨o, ho, hor, hoonly⟩, ⟨a, ha, hand, haonly⟩, e, he, hxor, heonly⟩ := logicOnAllBits x y s hroom
  refine ⟨?_, exec_subtracts hroom rfl, ?_, ?_, ?_, ⟨o, ho, hoonly.committed, fun k _ => hor k⟩,
    ⟨a, ha, haonly.committed, fun k _ => hand k⟩, e, he, heonly.committed, fun k _ => hxor k⟩
  · obtain ⟨t, ht, hcommitted, hresult, hflag⟩ := exec_resultAndFlag (i := .addReg x y) hroom rfl
    exact ⟨t, ht, hcommitted, fun hx => by rw [hresult hx]; exact BitVec.toNat_add .., hflag.trans (Bool.cond_decide ..)⟩
  · rw [eq_comm (a := s.reg x)]
    exact exec_subtracts (i := .subn x y) hroom rfl
  · obtain ⟨t, ht, hcommitted, hresult, -⟩ := exec_resultAndFlag (i := .shr x y) hroom rfl
    exact ⟨t, ht, hcommitted, fun hx => by rw [hresult hx]; exact ushiftRight_one (s.reg x)⟩
  · obtain ⟨t, ht, hcommitted, hresult, -⟩ := exec_resultAndFlag (i := .shl x y) hroom rfl
    exact ⟨t, ht, hcommitted, fun hx => by rw [hresult hx]; exact shiftLeft_one (s.reg x)⟩

end Sys2Proof.Machine
end

section
/-! PROOFS. The index register and memory (43_index_and_memory.md): the writers of `I` (O45), bcd (O46), store-regs (O47) and
load-regs (O48). -/

namespace Sys2Proof.Machine

/-! ## A handler that advances, and its frame (R88 to R90) -/

/-- With room to advance, an instruction whose handler advances commits the handler's registers and `I`, and keeps every
piece that the handler left alone. -/
theorem exec_advances {parts : List Part} {i : Instr} {s u : State} (hroom : CanAdvance s)
    (h : handlerOf i s.begin = advance u) (hframe : ChangedOnly parts s.begin u) :
    ∃ t, exec i s = .next t ∧ t.v = u.v ∧ t.index = u.index ∧ Advanced s t ∧ KeptBut parts s t ∧ Committed s t false :=
  ⟨_, (exec_eq_runHandler i s).trans (congrArg _ (runHandler_advance _ hroom h hframe.pc)), rfl, rfl,
    advanced_of_pc hroom rfl, keptBut_commit hframe _ _, committed_commit hframe _ _⟩

/-! ## The writers of `I` (R141 to R143) -/

/-- An instruction whose handler writes `I` and advances. -/
theorem exec_onlyIndex {i : Instr} {s : State} {j : Index} (hroom : CanAdvance s)
    (h : handlerOf i s.begin = advance { s.begin with index := j }) :
    ∃ t, exec i s = .next t ∧ t.index = j ∧ Advanced s t ∧ KeptBut [.index] s t ∧ Committed s t false := by
  obtain ⟨t, ht, -, hindex, hframe⟩ := exec_advances (parts := [.index]) hroom h rfl
  exact ⟨t, ht, hindex, hframe⟩

/-- A byte, widened to the index register, is the same number (R142, R143). -/
theorem toNat_byte_setWidth (b : Byte) : (b.setWidth 16).toNat = b.toNat := BitVec.toNat_setWidth_of_le (by decide)

/-- Five times any byte fits in the index register (R143). -/
theorem toNat_glyphAddr (b : Byte) : (b.setWidth 16 * 5 : Index).toNat = b.toNat * 5 := by
  have hfit : b.toNat * 5 < 2 ^ 16 := by have := b.isLt; omega
  rw [BitVec.toNat_mul, toNat_byte_setWidth]
  exact Nat.mod_eq_of_lt hfit

/-- Settles O45: each handler writes `I` alone, and the parameter of add-I asks for no flag. -/
theorem indexWrites : Obligations.IndexWrites := by
  intro x nnn s hroom
  refine ⟨?_, ?_, ?_⟩
  · obtain ⟨t, ht, hindex, hframe⟩ := exec_onlyIndex (i := .loadI nnn) hroom rfl
    exact ⟨t, ht, (congrArg BitVec.toNat hindex).trans (BitVec.toNat_setWidth_of_le (by decide)), hframe⟩
  · obtain ⟨t, ht, hindex, hframe⟩ := exec_onlyIndex (i := .addI x) (j := s.index + (s.reg x).setWidth 16) hroom rfl
    exact ⟨t, ht, by rw [hindex, BitVec.toNat_add, toNat_byte_setWidth], hframe⟩
  · obtain ⟨t, ht, hindex, hframe⟩ := exec_onlyIndex (i := .fontAddr x) (j := (s.reg x).setWidth 16 * 5) hroom rfl
    exact ⟨t, ht, by rw [hindex, toNat_glyphAddr], hframe⟩

/-! ## The stores (R144, R145) -/

/-- A tick that stores bytes from `I` on changes RAM and advances (R140). -/
theorem storeTick_frame {s : State} (bytes : List Byte) (hroom : CanAdvance s) :
    Advanced s (storeTick bytes s) ∧ KeptBut [.ram] s (storeTick bytes s) ∧ Committed s (storeTick bytes s) false := by
  have hframe : ChangedOnly [.ram] s.begin (s.begin.writeBytes bytes) := State.writeBytesFrom_frame ..
  exact ⟨advanced_of_pc hroom rfl, keptBut_commit hframe _ _, committed_commit hframe _ _⟩

/-- Settles O46: the three bytes stored are the digits, at the addresses from `I` on. -/
theorem bcdStoresDigits : Obligations.BcdStoresDigits := by
  intro x s hroom hfit
  have digit (k : Nat) (hk : k < 3) :
      ((storeTick (bcdDigits (s.reg x)) s).memRead (effAddr s.index k)).toNat =
        [(s.reg x).toNat / 100, (s.reg x).toNat / 10 % 10, (s.reg x).toNat % 10].getD k 0 :=
    memRead_bcd_stored hfit k hk (effAddr_toNat (by rw [ramSize_eq]; omega)).symm
  exact ⟨_, exec_bcd hroom hfit, digit 0 (by decide), digit 1 (by decide), digit 2 (by decide),
    fun a ha => memRead_bcd_kept hfit ha, storeTick_frame _ hroom⟩

/-- Settles O47: byte `k` stored is `V[k]`, and no byte of the run lies outside `I` to `I + x`. -/
theorem storeRegsStoresRun : Obligations.StoreRegsStoresRun := by
  intro x s hroom hfit
  refine ⟨_, exec_storeRegs hroom hfit, fun k hk => ?_, fun a ha => ?_, storeTick_frame _ hroom⟩
  · have hkx : k.val ≤ x.val := hk
    exact memRead_storeRegs_stored hfit hk (effAddr_toNat (by rw [ramSize_eq]; omega)).symm
  · refine memRead_storeRegs_kept hfit fun k hk => ?_
    have hkx : k.val ≤ x.val := hk
    omega

/-! ## The load (R146) -/

/-- What a register holds after a run of loads into `V[0]` to `V[x]`. -/
theorem State.reg_loadRun (s : State) (x k : Reg) :
    (s.setRegsFrom 0 (s.readBytes (x.val + 1))).reg k =
      if k ≤ x then s.memRead (effAddr s.index k.val) else s.reg k := by
  have hrun : (0 ≤ k.val ∧ k.val < 0 + (x.val + 1)) ↔ k ≤ x := by rw [Fin.le_def]; omega
  rw [State.reg_setRegsFrom, State.length_readBytes, if_congr hrun rfl rfl]
  split
  · next hk => exact State.getD_readBytes s (Nat.lt_succ_of_le hk)
  · rfl

/-- Settles O48: the registers that the run of loads names take their byte, the higher ones stay. -/
theorem loadRegsLoadsRun : Obligations.LoadRegsLoadsRun := by
  intro x s hroom hfit
  have hframe : ChangedOnly [.regs] s.begin (s.begin.setRegsFrom 0 (s.begin.readBytes (x.val + 1))) :=
    State.setRegsFrom_frame ..
  obtain ⟨t, ht, hv, -, hkept⟩ :=
    exec_advances (i := .loadRegs x) hroom (if_pos ((inBounds_iff ..).mpr hfit)) hframe
  have hreg (k : Reg) := (State.reg_congr hv k).trans (State.reg_loadRun s.begin x k)
  exact ⟨t, ht, fun k hk => (hreg k).trans (if_pos hk), fun k hk => (hreg k).trans (if_neg (not_le_of_gt hk)), hkept⟩

end Sys2Proof.Machine
end

section
/-! PROOFS. The display (44_display.md): the row mask (O54), clear-screen (O51), draw (O52), and the same draw twice (O53). -/

namespace Sys2Proof.Machine

/-! ## The row mask (R162) -/

/-- Bit `7 - j` of the sprite byte goes `j` columns right of `cx`, round the right edge. -/
theorem rowMask_at_column (b : Byte) (cx : Fin Config.width) (j : Fin 8) :
    (rowMask b cx.val).getLsbD (63 - (cx.val + j.val) % 64) = b.getLsbD (7 - j.val) := by
  have hturn : (63 - (cx.val + j.val) % 64 + cx.val) % 64 = 63 - j.val := by omega
  have hin : 56 ≤ 63 - j.val := by omega
  have hbit : 63 - j.val - 56 = 7 - j.val := by omega
  rw [getLsbD_rowMask b cx.isLt (by omega), hturn, hbit, decide_eq_true hin, Bool.true_and]

theorem rowMask_off_sprite (b : Byte) {cx c : Fin Config.width} (h : ∀ j : Fin 8, c.val ≠ (cx.val + j.val) % 64) :
    (rowMask b cx.val).getLsbD (63 - c.val) = false := by
  have hcol : c.val < 64 := c.isLt
  have hout : ¬ 56 ≤ (63 - c.val + cx.val) % 64 := fun hin =>
    h ⟨63 - (63 - c.val + cx.val) % 64, by omega⟩ (by simp only; omega)
  rw [getLsbD_rowMask b cx.isLt (by omega), decide_eq_false hout, Bool.false_and]

/-- Where the sprite byte does not wrap, the mask's bits are the byte's between zeros below and zeros above. -/
theorem rowMask_eq_shiftLeft (b : Byte) {cx : Nat} (hcx : cx ≤ 56) : rowMask b cx = b.setWidth 64 <<< (56 - cx) := by
  refine BitVec.eq_of_getLsbD_eq fun i hi => ?_
  rw [getLsbD_rowMask b (by omega) hi, BitVec.getLsbD_shiftLeft, BitVec.getLsbD_setWidth]
  by_cases hbelow : i < 56 - cx
  · have hout : ¬ 56 ≤ (i + cx) % 64 := by omega
    simp [hout, hbelow]
  · by_cases habove : 64 ≤ i + cx
    · have hout : ¬ 56 ≤ (i + cx) % 64 := by omega
      have hpast : b.getLsbD (i - (56 - cx)) = false := BitVec.getLsbD_of_ge _ _ (by omega)
      simp [hout, hpast]
    · have hturn : (i + cx) % 64 = i + cx := Nat.mod_eq_of_lt (by omega)
      have hin : 56 ≤ i + cx := by omega
      have hbit : i + cx - 56 = i - (56 - cx) := by omega
      have hlow : i - (56 - cx) < 64 := by omega
      simp [hturn, hin, hbelow, hbit, hi, hlow]

/-- Settles O54: the mask's bit at a column is the sprite bit that many places right of `cx`, cyclically. -/
theorem rowMaskWraps : Obligations.RowMaskWraps := fun b cx =>
  ⟨rowMask_at_column b cx, fun _ => rowMask_off_sprite b, rowMask_eq_shiftLeft b⟩

/-- The pixels of a row mask, column by column. -/
theorem rowMask_column (b : Byte) (cx c : Fin Config.width) :
    (rowMask b cx.val).getLsbD (63 - c.val) = true ↔
      ∃ j : Fin 8, c.val = (cx.val + j.val) % 64 ∧ b.getLsbD (7 - j.val) = true := by
  constructor
  · intro hbit
    obtain ⟨j, hj⟩ : ∃ j : Fin 8, c.val = (cx.val + j.val) % 64 := by
      by_contra hno
      exact Bool.false_ne_true ((rowMask_off_sprite b (not_exists.mp hno)).symm.trans hbit)
    exact ⟨j, hj, (rowMask_at_column b cx j).symm.trans (hj ▸ hbit)⟩
  · rintro ⟨j, hj, hbit⟩
    rw [hj, rowMask_at_column b cx j, hbit]

/-- Two rows collide exactly where some column is on in both. -/
theorem collides_iff_column (row mask : Row) :
    collides row mask = true ↔
      ∃ c : Fin Config.width, row.getLsbD (63 - c.val) = true ∧ mask.getLsbD (63 - c.val) = true := by
  rw [collides_iff]
  constructor
  · rintro ⟨i, hi, hon⟩
    have hcol : 63 - (63 - i) = i := by omega
    exact ⟨⟨63 - i, by simp only [width_eq]; omega⟩, by rwa [hcol]⟩
  · rintro ⟨c, hon⟩
    exact ⟨63 - c.val, by omega, hon⟩

/-! ## The sprite, row by row (R161, R165 (a)) -/

section
variable {t : State} {x y : Reg} {n : Fin 16} {r : Fin Config.height} {c : Fin Config.width}

/-- A pixel of the sprite lies on the display row of one of the sprite's rows, under that row's mask. -/
theorem spritePixel_iff : spritePixel t x y n r c = true ↔
    ∃ b, b < n.val ∧ spriteRow (t.reg y).toNat b = r ∧
      (rowMask (t.memRead (effAddr t.index b)) ((t.reg x).toNat % Config.width)).getLsbD (63 - c.val) = true := by
  have hcolumn (b : Nat) := rowMask_column (t.memRead (effAddr t.index b))
    ⟨(t.reg x).toNat % Config.width, Nat.mod_lt _ (by decide)⟩ c
  simp only [Nat.mod_add_mod] at hcolumn
  simp only [spritePixel, decide_eq_true_eq, hcolumn, spriteRow, Fin.ext_iff]
  constructor
  · rintro ⟨b, j, hr, hc, hbit⟩
    exact ⟨b.val, b.isLt, hr.symm, j, hc, hbit⟩
  · rintro ⟨b, hb, hr, j, hc, hbit⟩
    exact ⟨⟨b, hb⟩, j, hr.symm, hc, hbit⟩

/-- The sprite has at most 15 rows, so no two land on one display row. -/
theorem spriteRow_unique {cy b b' : Nat} (hb : b < n.val) (hb' : b' < n.val) (h : spriteRow cy b = spriteRow cy b') :
    b = b' :=
  spriteRow_inj (by simp only [height_eq]; omega) (by simp only [height_eq]; omega) (congrArg Fin.val h)

/-- On the display row of sprite row `b` the sprite is that row's mask. -/
theorem spritePixel_spriteRow {b : Nat} (hb : b < n.val) : spritePixel t x y n (spriteRow (t.reg y).toNat b) c =
    (rowMask (t.memRead (effAddr t.index b)) ((t.reg x).toNat % Config.width)).getLsbD (63 - c.val) := by
  rw [Bool.eq_iff_iff, spritePixel_iff]
  constructor
  · rintro ⟨b', hb', hrow, hbit⟩
    rwa [spriteRow_unique hb' hb hrow] at hbit
  · exact fun hbit => ⟨b, hb, rfl, hbit⟩

/-- The sprite is read off the registers, `I` and RAM alone. -/
theorem spritePixel_congr {s : State} (hx : t.reg x = s.reg x) (hy : t.reg y = s.reg y) (hindex : t.index = s.index)
    (hram : ∀ a, t.memRead a = s.memRead a) : spritePixel t x y n r c = spritePixel s x y n r c := by
  simp only [spritePixel, hx, hy, hindex, hram]

end

/-! ## The handler of draw (R161 to R165) -/

/-- The state with the sprite drawn and the collision in `VF`; `handlerOf_draw` ties it to the model. -/
def State.drawn (t : State) (x y : Reg) (n : Fin 16) : State :=
  let p := blit t ((t.reg x).toNat % Config.width) (t.reg y).toNat n.val
  { t with fb := p.1 }.setReg VF (flagByte p.2)

/-- The bounds condition of draw: `n = 0` checks nothing (R46, R165 (b)). -/
abbrev DrawFits (s : State) (n : Fin 16) : Prop := n.val = 0 ∨ s.index.toNat + (n.val - 1) ≤ 0xFFF

theorem handlerOf_draw (x y : Reg) (n : Fin 16) (t : State) : handlerOf (.draw x y n) t =
    if DrawFits t n then .ok ⟨t.drawn x y n, .advance, true⟩ else .error .memoryOutOfBounds :=
  if_congr (by rw [Bool.or_eq_true, decide_eq_true_eq, inBounds_iff]) rfl rfl

section
variable (t : State) (x y : Reg) (n : Fin 16)

theorem State.drawn_frame : ChangedOnly [.regs, .display] t (t.drawn x y n) := rfl

theorem State.reg_drawn_of_ne {r : Reg} (h : r ≠ VF) : (t.drawn x y n).reg r = t.reg r :=
  (State.reg_setReg ..).trans (if_neg h)

/-- draw flips the pixels under the sprite, and no other (R161, R163). -/
theorem State.pixel_drawn (r : Fin Config.height) (c : Fin Config.width) :
    (t.drawn x y n).pixel r c = Bool.xor (t.pixel r c) (spritePixel t x y n r c) := by
  have hn : n.val ≤ Config.height := by simp only [height_eq]; omega
  by_cases hrow : ∃ b, b < n.val ∧ spriteRow (t.reg y).toNat b = r
  · obtain ⟨b, hb, rfl⟩ := hrow
    rw [spritePixel_spriteRow hb, State.pixel, State.pixel, ← BitVec.getLsbD_xor]
    exact congrArg (BitVec.getLsbD · _) (blit_row t _ _ hn hb)
  · have hclear : spritePixel t x y n r c = false :=
      Bool.eq_false_iff.mpr fun hon => let ⟨b, hb, hr, _⟩ := spritePixel_iff.mp hon; hrow ⟨b, hb, hr⟩
    rw [hclear, Bool.xor_false]
    exact congrArg (BitVec.getLsbD · _)
      (blit_row_other t _ _ r.isLt n.val fun b hb hr => hrow ⟨b, hb, Fin.ext hr⟩)

/-- The collision flag of draw: some pixel under the sprite was on (R163). -/
theorem blit_collides_iff : (blit t ((t.reg x).toNat % Config.width) (t.reg y).toNat n.val).2 = true ↔
    ∃ r c, t.pixel r c = true ∧ spritePixel t x y n r c = true := by
  rw [blit_flag t _ _ (by simp only [height_eq]; omega)]
  simp only [collides_iff_column]
  constructor
  · rintro ⟨b, hb, c, hon, hmask⟩
    exact ⟨spriteRow (t.reg y).toNat b, c, hon, (spritePixel_spriteRow hb).trans hmask⟩
  · rintro ⟨r, c, hon, hsprite⟩
    obtain ⟨b, hb, rfl, hmask⟩ := spritePixel_iff.mp hsprite
    exact ⟨b, hb, c, hon, hmask⟩

/-- `VF` after draw is 1 where a pixel under the sprite was on, else 0 (R163). -/
theorem State.reg_VF_drawn : (t.drawn x y n).reg VF =
    if ∃ r c, t.pixel r c = true ∧ spritePixel t x y n r c = true then 1 else 0 :=
  ((State.reg_setReg ..).trans (if_pos rfl)).trans (if_congr (blit_collides_iff t x y n) rfl rfl)

end

/-! ## The display instructions -/

/-- With room to advance, an instruction whose handler answers `changed` and advances commits the handler's registers and
framebuffer, and keeps every piece that the handler left alone (R91). -/
theorem exec_draws {parts : List Part} {i : Instr} {s u : State} (hroom : CanAdvance s)
    (h : handlerOf i s.begin = .ok ⟨u, .advance, true⟩) (hframe : ChangedOnly parts s.begin u) :
    ∃ t, exec i s = .next t ∧ t.v = u.v ∧ t.fb = u.fb ∧ Advanced s t ∧ KeptBut parts s t ∧ Committed s t true := by
  have hfit : pcTarget s.pc .advance < Config.ramSize := Nat.lt_succ_of_le hroom
  have hc := committedAs_commit (r := ⟨u, .advance, true⟩) hframe hfit
  refine ⟨_, (exec_eq_runHandler i s).trans (congrArg _ (runHandler_commit h ?_)), rfl, rfl, hc.pc, hc.kept, hc.committed⟩
  rwa [hframe.pc]

/-- Settles O51: every row of the framebuffer written is 0. -/
theorem clearScreenClears : Obligations.ClearScreenClears := by
  intro s hroom
  obtain ⟨t, ht, -, hfb, hkept⟩ := exec_draws (i := .clearScreen) (parts := [.display]) hroom rfl rfl
  refine ⟨t, ht, fun r c => ?_, hkept⟩
  simp only [State.pixel, hfb, Vector.getElem_replicate]
  exact BitVec.getLsbD_zero

/-- Settles O52: the tick commits the drawn state, whose pixels and flag are given row by row. -/
theorem drawFlipsSpritePixels : Obligations.DrawFlipsSpritePixels := by
  intro x y n s hroom hfit
  obtain ⟨t, ht, hv, hfb, hkept⟩ :=
    exec_draws hroom ((handlerOf_draw x y n s.begin).trans (if_pos hfit)) (State.drawn_frame s.begin x y n)
  have hflag := (State.reg_congr hv VF).trans (State.reg_VF_drawn s.begin x y n)
  exact ⟨t, ht, fun r c => (State.pixel_congr hfb r c).trans (State.pixel_drawn s.begin x y n r c),
    fun hon => hflag.trans (if_pos hon), fun hoff => hflag.trans (if_neg hoff),
    fun r hr => (State.reg_congr hv r).trans (State.reg_drawn_of_ne s.begin x y n hr), hkept⟩

/-! ## The same draw twice (R163) -/

/-- The pixels make up the framebuffer (R23). -/
theorem State.fb_ext {s t : State} (h : ∀ r c, t.pixel r c = s.pixel r c) : t.fb = s.fb := by
  refine Vector.ext fun r hr => BitVec.eq_of_getLsbD_eq fun i hi => ?_
  have hcol : 63 - (63 - i) = i := by omega
  have hpixel := h ⟨r, hr⟩ ⟨63 - i, by simp only [width_eq]; omega⟩
  simpa only [State.pixel, hcol] using hpixel

/-- A draw after which the latch is empty had room to advance and its rows in RAM. -/
theorem draw_conditions {x y : Reg} {n : Fin 16} {s t : State} (h : exec (.draw x y n) s = .next t) (ht : t.fault = none) :
    CanAdvance s ∧ DrawFits s n := by
  obtain ⟨r, hr, hc⟩ := committedAs_of_exec h ht
  rw [handlerOf_draw] at hr
  split at hr
  · next hfit =>
    cases hr
    have hpc : t.pc.toNat = s.pc.toNat + 2 := hc.pc
    exact ⟨by omega, hfit⟩
  · cases hr

/-- A draw after which the latch is empty flips the sprite's pixels, sets `VF` by the collision, and leaves the sprite of
the same draw as it was, where the coordinates do not stand in `VF`. -/
theorem draw_pixels_flag_sprite {x y : Reg} {n : Fin 16} {s t : State} (hx : x ≠ VF) (hy : y ≠ VF)
    (h : exec (.draw x y n) s = .next t) (ht : t.fault = none) :
    (∀ r c, t.pixel r c = Bool.xor (s.pixel r c) (spritePixel s x y n r c)) ∧
      (t.reg VF = 1 ↔ ∃ r c, s.pixel r c = true ∧ spritePixel s x y n r c = true) ∧
      ∀ r c, spritePixel t x y n r c = spritePixel s x y n r c := by
  obtain ⟨hroom, hfit⟩ := draw_conditions h ht
  obtain ⟨t', ht', hpixel, hone, hzero, hreg, -, hkept, -⟩ := drawFlipsSpritePixels x y n s hroom hfit
  obtain rfl : t' = t := Host.Outcome.next.inj (ht'.symm.trans h)
  refine ⟨hpixel, ⟨fun hVF => ?_, hone⟩, fun r c => ?_⟩
  · by_contra hno
    exact absurd (hVF.symm.trans (hzero hno)) (by decide)
  · exact spritePixel_congr (hreg x hx) (hreg y hy) (hkept .index (by decide)) (hkept .ram (by decide))

/-- Settles O53: both draws lay the same sprite, so the second flips each pixel back, and a pixel under the sprite was on
before the second exactly when it was off before the first. -/
theorem drawTwiceErases : Obligations.DrawTwiceErases := by
  intro x y n s t u hx hy _ hst ht htu hu
  obtain ⟨hpixel, -, hsprite⟩ := draw_pixels_flag_sprite hx hy hst ht
  obtain ⟨hpixel', hflag, -⟩ := draw_pixels_flag_sprite hx hy htu hu
  refine ⟨State.fb_ext fun r c => ?_, hflag.trans (exists_congr fun r => exists_congr fun c => ?_)⟩
  · rw [hpixel', hpixel, hsprite, Bool.xor_assoc, Bool.xor_self, Bool.xor_false]
  · rw [hpixel, hsprite, and_comm]
    refine and_congr_right fun hon => ?_
    rw [hon, Bool.xor_true, Bool.not_eq_true']

end Sys2Proof.Machine
end

section
/-! SUPPORT. The keypad, the timers and the wait (45_keypad_and_timers.md): what the handlers of the key skips answer, what a
handler that advances leaves in the timers and the wait, that a tick runs the next instruction, and that load keeps the wait. -/

namespace Sys2Proof.Machine

/-! ## The key skips (R171, R172) -/

section
variable {s : State} {x : Reg}

/-- With a key number in range the handler of skip-key-pressed tests the latched bit (R171). -/
theorem handlerOf_skipKeyPressed (h : (s.reg x).toNat ≤ 15) :
    handlerOf (.skipKeyPressed x) s = skipIf (decide (s.keys.getLsbD (s.reg x).toNat = true)) s := by
  simp only [handlerOf, State.keyPressed_ok h, Bool.decide_eq_true]

/-- With a key number in range the handler of skip-key-not-pressed tests the latched bit for 0 (R172). -/
theorem handlerOf_skipKeyNotPressed (h : (s.reg x).toNat ≤ 15) :
    handlerOf (.skipKeyNotPressed x) s = skipIf (decide (s.keys.getLsbD (s.reg x).toNat = false)) s := by
  simp only [handlerOf, State.keyPressed_ok h, Bool.decide_eq_false]

/-- Above 15 no key has the number that the register holds, and both handlers raise (R171, R172; decision D13). -/
theorem handlerOf_keySkips_outOfRange (h : 15 < (s.reg x).toNat) :
    handlerOf (.skipKeyPressed x) s = .error .keyIndexOutOfRange ∧
      handlerOf (.skipKeyNotPressed x) s = .error .keyIndexOutOfRange := by
  simp only [handlerOf, State.keyPressed_error h, and_self]

end

/-! ## The timers and the wait after a handler that advances (R174 to R176) -/

/-- With room to advance, an instruction whose handler advances commits the handler's timers and wait, and keeps every piece
that the handler left alone. -/
theorem exec_advances_timers_wait {parts : List Part} {i : Instr} {s u : State} (hroom : CanAdvance s)
    (h : handlerOf i s.begin = advance u) (hframe : ChangedOnly parts s.begin u) :
    ∃ t, exec i s = .next t ∧ t.dt = u.dt ∧ t.st = u.st ∧ t.wait = u.wait ∧
      Advanced s t ∧ KeptBut parts s t ∧ Committed s t false :=
  ⟨_, (exec_eq_runHandler i s).trans (congrArg _ (runHandler_advance _ hroom h hframe.pc)), rfl, rfl, rfl,
    advanced_of_pc hroom rfl, keptBut_commit hframe _ _, committed_commit hframe _ _⟩

/-! ## The rows of the wait machine (R177) -/

/-- A tick with a next instruction runs it (R82, R88). -/
theorem step_of_nextInstr {s : State} {i : Instr} (h : s.nextInstr = some i) : step s = exec i s := by
  unfold State.nextInstr at h
  split at h
  · next hrun =>
    obtain ⟨hf, hw⟩ := hrun
    obtain ⟨w, hx, hd⟩ := Option.bind_eq_some_iff.mp h
    split at hd <;> cases hd
    next hd => exact step_instr hf hw hx hd
  · cases h

/-- load writes RAM alone (R81). -/
theorem State.load_wait (s : State) (bytes : List Byte) : (s.load bytes).wait = s.wait :=
  (congrArg State.wait (State.loadFrom_frame s 0 bytes)).trans rfl

end Sys2Proof.Machine
end

section
/-! PROOFS. The keypad and the timers (45_keypad_and_timers.md): the key skips (O55), the timer instructions (O56), wait-key
(O57) and the table of the wait machine (O22). -/

namespace Sys2Proof.Machine

/-- Settles O55: the bit tested is that of the keypad latched at the beginning of this tick. -/
theorem keySkips : Obligations.KeySkips := by
  refine fun x s => ⟨fun hkey hroom => ?_, fun hkey hroom => ?_, fun hkey => ?_⟩
  · rw [← Bool.not_eq_true] at hroom
    exact exec_skipsIf (handlerOf_skipKeyPressed (s := s.begin) hkey) hroom
  · rw [← Bool.not_eq_false] at hroom
    exact exec_skipsIf (handlerOf_skipKeyNotPressed (s := s.begin) hkey) hroom
  · exact (handlerOf_keySkips_outOfRange (s := s.begin) hkey).imp exec_faultTaken exec_faultTaken

/-- Settles O56: the handlers work on the stepped timers. -/
theorem timerInstructions : Obligations.TimerInstructions := by
  refine fun x s hroom => ⟨?_, ?_, ?_⟩
  · obtain ⟨t, ht, hx, honly⟩ := exec_onlyReg (i := .readDelay x) hroom rfl
    exact ⟨t, ht, (congrArg BitVec.toNat hx).trans (timerStep_toNat s.dt), honly⟩
  · obtain ⟨t, ht, hdt, -, -, hframe⟩ :=
      exec_advances_timers_wait (i := .setDelay x) (parts := [.delay]) hroom rfl rfl
    exact ⟨t, ht, hdt, hframe⟩
  · obtain ⟨t, ht, -, hst, -, hframe⟩ :=
      exec_advances_timers_wait (i := .setSound x) (parts := [.sound]) hroom rfl rfl
    exact ⟨t, ht, hst, hframe⟩

/-- Settles O57: the handler writes the wait alone. -/
theorem waitKeyEntersWait : Obligations.WaitKeyEntersWait := by
  intro x s hroom
  obtain ⟨t, ht, -, -, hwait, hframe⟩ :=
    exec_advances_timers_wait (i := .waitKey x) (parts := [.wait]) hroom rfl rfl
  exact ⟨t, ht, hwait, hframe⟩

/-! ## The wait machine (R177) -/

section
variable {s t : State}

/-- A wait-key after which the latch is empty had room to advance, so it entered the wait (R174). -/
theorem waitKey_enters {x : Reg} (h : exec (.waitKey x) s = .next t) (ht : t.fault = none) :
    t.wait = .waitingForKey x ∧ Advanced s t := by
  obtain ⟨r, hr, hc⟩ := committedAs_of_exec h ht
  cases hr
  have hpc : t.pc.toNat = s.pc.toNat + 2 := hc.pc
  have hroom : CanAdvance s := by have := t.pc.isLt; omega
  obtain ⟨t', ht', hwait, hadv, -, -⟩ := waitKeyEntersWait x s hroom
  obtain rfl : t' = t := Host.Outcome.next.inj (ht'.symm.trans h)
  exact ⟨hwait, hadv⟩

/-- A running tick that faults, or runs another instruction than wait-key, keeps the engine running (R192). -/
theorem step_stays_running (h : step s = .next t) (hf : s.fault = none) (hw : s.wait = .running)
    (hno : (∀ x, s.nextInstr ≠ some (.waitKey x)) ∨ t.fault ≠ none) : t.wait = .running := by
  rcases hno with hno | ht
  · obtain ⟨-, -, -, hwrites, -, -⟩ := whoWritesWhat s t h
    by_contra hne
    rw [← hw] at hne
    rcases hwrites hne with ⟨x, hx⟩ | ⟨r, hr⟩
    · exact hno x hx
    · cases hw.symm.trans hr
  · obtain ⟨k, rfl, -⟩ := faultCommitsNothing s t hf h ht
    exact hw

end

/-- The wait goes on exactly while no key is pressed (R85). -/
theorem State.waitingTick_wait {s : State} {r : Reg} (hw : s.wait = .waitingForKey r) :
    (s.input.keypad = 0 → (s.waitingTick r).wait = .waitingForKey r) ∧
      (s.input.keypad ≠ 0 → (s.waitingTick r).wait = .running) := by
  refine ⟨fun hkey => ?_, fun hkey => ?_⟩
  · rw [State.waitingTick_of_noKey r hkey]
    exact hw
  · rw [State.waitingTick_of_key r hkey]
    rfl

/-- Settles O22: a running tick, a waiting tick, a halted tick and the host's two operations, one row each. -/
theorem waitMachine : Obligations.WaitMachine := by
  refine ⟨fun s t hf h => ⟨fun hw => ⟨fun x hx ht => ?_, step_stays_running h hf hw⟩, fun r hw => ?_⟩,
    fun s t hf h => ?_, fun s bytes => ⟨State.load_wait s bytes, rfl⟩⟩
  · exact waitKey_enters ((step_of_nextInstr hx).symm.trans h) ht
  · obtain rfl : s.waitingTick r = t := Host.Outcome.next.inj ((step_waiting hf hw).symm.trans h)
    exact ⟨(State.waitingTick_fault s r).trans hf, State.waitingTick_wait hw⟩
  · obtain ⟨r, hr⟩ := Option.ne_none_iff_exists'.mp hf
    obtain rfl : s.haltedTick r = t := Host.Outcome.next.inj ((step_halted hr).symm.trans h)
    exact State.haltedTick_wait s r

end Sys2Proof.Machine
end

section
/-! SUPPORT. The fault of an instruction's tick, computed from what its handler answers (60_exceptions.md R195: the handler's
own fault, then that of the PC action), is the one that the tables of R190 and R198 give. -/

namespace Sys2Proof.Machine

/-! ## The fault of a handler's answer (R89, R195) -/

/-- The fault of the tick from `s` whose handler gave this answer: the one it raised, else that of the PC action it asked
for. `exec_faults_by_answer` ties it to exec. -/
def answerFault (s : State) : Except FaultKind Handled → Option FaultKind
  | .error k => some k
  | .ok r => if 0xFFF < pcTarget s.pc r.act then some .pcOutOfRange else none

/-- An instruction takes the fault of its handler's answer, and commits where that answer has none (R90, R192). -/
theorem exec_faults_by_answer (i : Instr) (s : State) : ∃ t, exec i s = .next t ∧
    (∀ k, answerFault s (handlerOf i s.begin) = some k → FaultTaken s t k (encode i)) ∧
    (answerFault s (handlerOf i s.begin) = none → Committed s t i.draws) := by
  cases h : handlerOf i s.begin with
  | error k =>
    obtain ⟨t, ht, hfault⟩ := exec_faultTaken h
    exact ⟨t, ht, fun k' hk => Option.some.inj hk ▸ hfault, nofun⟩
  | ok r =>
    simp only [answerFault]
    split
    · next hpast =>
      obtain ⟨t, ht, hfault⟩ := exec_pastRam h (Nat.not_lt.mpr hpast)
      exact ⟨t, ht, fun k hk => Option.some.inj hk ▸ hfault, nofun⟩
    · next hfit =>
      obtain ⟨t, ht, hc⟩ := exec_commits h (handlerOf_changedOnly h) (Nat.lt_succ_of_le (Nat.not_lt.mp hfit))
      exact ⟨t, ht, nofun, fun _ => handlerOf_changed h ▸ hc.committed⟩

section
variable (s u : State)

theorem answerFault_skipIf (cond : Bool) : answerFault s (skipIf cond u) =
    if 0xFFF < s.pc.toNat + (if cond then 4 else 2) then some .pcOutOfRange else none := by
  cases cond <;> rfl

/-- A jump to an address always fits (R89). -/
theorem answerFault_jumpTo (a : Addr) : answerFault s (jumpTo a.toNat u) = none :=
  if_neg (Nat.not_lt.mpr (Nat.le_of_lt_succ a.isLt))

/-- A handler that tests the offsets up to `m` from `I` raises before its PC action is looked at (R46, R195). -/
theorem answerFault_bounded {r : Handled} {m : Nat} {fits : Prop} [Decidable fits]
    (hfits : fits ↔ s.index.toNat + m ≤ 0xFFF) :
    answerFault s (if fits then .ok r else .error .memoryOutOfBounds) =
      if 0xFFF < s.index.toNat + m then some .memoryOutOfBounds else answerFault s (.ok r) := by
  by_cases h : fits
  · rw [if_pos h, if_neg (Nat.not_lt.mpr (hfits.mp h))]
  · rw [if_neg h, if_pos (Nat.lt_of_not_le (mt hfits.mpr h))]
    rfl

end

/-! ## The table (R190, R198) -/

/-- The table gives every instruction the fault of its handler's answer. -/
theorem faultOf_eq_answerFault (i : Instr) (s : State) : faultOf i s = answerFault s (handlerOf i s.begin) := by
  cases i with
  | ret =>
    simp only [faultOf]
    split
    · next h => rw [handlerOf_ret_empty (s := s.begin) h]; rfl
    · next h =>
      obtain ⟨k, hk⟩ := Nat.exists_eq_succ_of_ne_zero h
      have hlt : k < Config.stackDepth := by have := s.sp.isLt; omega
      rw [handlerOf_ret_pops (s := s.begin) hk hlt, answerFault_jumpTo]
  | jump nnn => exact (answerFault_jumpTo s s.begin nnn).symm
  | call nnn =>
    simp only [faultOf]
    split
    · next h => rw [handlerOf_call_full (s := s.begin) nnn (Nat.not_lt.mpr h.ge)]; rfl
    · next h =>
      have hlt : s.begin.sp.val < Config.stackDepth := Nat.lt_of_le_of_ne (Nat.le_of_lt_succ s.sp.isLt) h
      split
      · next hpast => rw [handlerOf_call_noRoom hlt nnn (Nat.not_le.mpr hpast)]; rfl
      · next hroom => rw [handlerOf_call_pushes hlt nnn (Nat.not_lt.mp hroom), answerFault_jumpTo]
  | skipEqImm x kk => exact (answerFault_skipIf s s.begin (s.reg x == kk)).symm
  | skipEqReg x y => exact (answerFault_skipIf s s.begin (s.reg x == s.reg y)).symm
  | skipNeqImm x kk | skipNeqReg x y =>
    simp only [handlerOf, answerFault_skipIf, decide_not]
    rfl
  | skipKeyPressed x =>
    simp only [faultOf]
    split
    · next h => rw [(handlerOf_keySkips_outOfRange (s := s.begin) h).1]; rfl
    · next h =>
      rw [handlerOf_skipKeyPressed (s := s.begin) (Nat.not_lt.mp h), answerFault_skipIf, Bool.decide_eq_true]
      rfl
  | skipKeyNotPressed x =>
    simp only [faultOf]
    split
    · next h => rw [(handlerOf_keySkips_outOfRange (s := s.begin) h).2]; rfl
    · next h =>
      rw [handlerOf_skipKeyNotPressed (s := s.begin) (Nat.not_lt.mp h), answerFault_skipIf, Bool.decide_eq_false]
      rfl
  | draw x y n =>
    simp only [faultOf]
    split
    · next h => rw [handlerOf_draw_zero x y s.begin h]; rfl
    · next h =>
      have hfits : DrawFits s.begin n ↔ s.index.toNat + (n.val - 1) ≤ 0xFFF := or_iff_right h
      rw [handlerOf_draw, answerFault_bounded s hfits]
      rfl
  | bcd x => exact (answerFault_bounded s (r := ⟨_, .advance, false⟩) (inBounds_iff s.index 2)).symm
  | storeRegs x | loadRegs x => exact (answerFault_bounded s (r := ⟨_, .advance, false⟩) (inBounds_iff s.index x.val)).symm
  | _ => rfl

end Sys2Proof.Machine
end

section
/-! PROOFS. The exceptions (60_exceptions.md): the halt (O14), the fault table (O25), the order of faults (O27) and the host's
reset (O29). -/

namespace Sys2Proof.Machine

/-! ## The fault table and the order of faults (R190, R195, R198) -/

/-- Settles O25: the table's fault is that of the handler's answer, which the tick takes. -/
theorem faultsExactlyByTheTable : Obligations.FaultsExactlyByTheTable := by
  intro i s
  rw [faultOf_eq_answerFault]
  exact exec_faults_by_answer i s

/-- A fault that the table gives is latched with the instruction's word and address (R191, R192). -/
theorem exec_latches {i : Instr} {s : State} {k : FaultKind} (h : faultOf i s = some k) :
    ∃ t, exec i s = .next t ∧ t.fault = some ⟨k, encode i, s.pc⟩ := by
  obtain ⟨t, ht, hfault, -⟩ := faultsExactlyByTheTable i s
  exact ⟨t, ht, congrArg State.fault (hfault k h)⟩

/-- Settles O27: the table tests the handler's own condition before the room for the PC action. -/
theorem handlerFaultComesFirst : Obligations.HandlerFaultComesFirst := fun _ _ _ _ _ _ =>
  ⟨fun h => exec_latches (if_pos h), fun h => exec_latches (if_pos h), fun h => exec_latches (if_pos h),
    fun hn h => exec_latches ((if_neg hn.ne').trans (if_pos h)), fun h => exec_latches (if_pos h),
    fun h => exec_latches (if_pos h), fun h => exec_latches (if_pos h), fun h => exec_latches (if_pos h)⟩

/-! ## The halt and the reset (R193, R194, R220) -/

theorem run_succ_of_halted {s : State} {r : FaultRecord} (h : s.fault = some r) (k : Nat) :
    Host.Core.run core (k + 1) s = Host.Core.run core k (s.haltedTick r) := by
  have hstep : core.step s = .next (s.haltedTick r) := step_halted h
  simp only [Host.Core.run, hstep]

/-- The state after `k` ticks of a halted engine: inputs used up, ticks counted, the record returned, nothing else. -/
theorem run_halted {s : State} {r : FaultRecord} (h : s.fault = some r) (k : Nat) :
    Host.Core.run core k s = .next { s with
      out := if k = 0 then s.out else some (.fault r), inputs := s.inputs.drop k, ticks := s.ticks + k } := by
  induction k generalizing s with
  | zero => rfl
  | succ k ih =>
    refine ((run_succ_of_halted h k).trans (ih h)).trans ?_
    simp only [State.haltedTick_out, State.haltedTick_inputs, State.haltedTick_ticks, ite_self, Nat.add_one_ne_zero,
      ↓reduceIte, List.drop_tail, Nat.add_assoc, Nat.add_comm 1 k]
    rfl

/-- Settles O14: ticks of a halted engine touch only the host's side of the state. -/
theorem haltIsForever : Obligations.HaltIsForever := fun k _ _ hr =>
  ⟨_, run_halted hr k, hr, rfl, fun hk => if_neg hk.ne'⟩

/-- Settles O29: hostReset is defined from the reset state alone, but for the host's inputs and tick count. -/
theorem hostResetForgetsEverything : Obligations.HostResetForgetsEverything := fun _ => rfl

end Sys2Proof.Machine
end
